-- ==== Sys2Proof/Word.lean ====
section
/-! DEFINITION. The two bit-vector types that cross the block's ports (10_state.md R10, 30_encoding.md R34). -/

namespace Sys2Proof

/-- A value word, an operand or a result: 32 bits, bit 0 least significant (R6, R10). -/
abbrev Word := BitVec 32

/-- A request word `{op[71:64], a[63:32], b[31:0]}` (R34). -/
abbrev Request := BitVec 72

end Sys2Proof
end

