-- ==== Sys2Proof/Syntax.lean ====
section
/-! DEFINITION. The block's 17 operations (30_encoding.md R40), one constructor per row of the opcode map.
Every request carries two full 32-bit operands (R26, R37), so every constructor holds both words, also
where the operation ignores `b` (format U, R36): no bit of a request is dropped by decoding. -/

namespace Sys2Proof

/-- A request to the block: the operation and the operand words `a` and `b` exactly as presented (R8). -/
inductive Instr where
  /-- ADD, op 0x00, format B (R72). -/
  | add (a b : Word)
  /-- SUB, op 0x01, format B (R77). -/
  | sub (a b : Word)
  /-- MUL, op 0x02, format B (R79). -/
  | mul (a b : Word)
  /-- DIV, op 0x03, format B; `a` the dividend, `b` the divisor (R82). -/
  | div (a b : Word)
  /-- NEG, op 0x04, format U (R71). -/
  | neg (a b : Word)
  /-- EQ, op 0x10, format B (R86). -/
  | eq (a b : Word)
  /-- ISZERO, op 0x11, format U (R94). -/
  | isZero (a b : Word)
  /-- ISNAN, op 0x12, format U (R95). -/
  | isNaN (a b : Word)
  /-- ISINF, op 0x13, format U (R96). -/
  | isInf (a b : Word)
  /-- ISNEG, op 0x14, format U (R97). -/
  | isNeg (a b : Word)
  /-- ISSUB, op 0x15, format U (R98). -/
  | isSub (a b : Word)
  /-- ISNORM, op 0x16, format U (R99). -/
  | isNorm (a b : Word)
  /-- EXPO, op 0x17, format U (R100). -/
  | expo (a b : Word)
  /-- CVTU, op 0x20, format U (R53). -/
  | cvtu (a b : Word)
  /-- CVTS, op 0x21, format U (R55). -/
  | cvts (a b : Word)
  /-- CVTI, op 0x22, format U (R88). -/
  | cvti (a b : Word)
  /-- LIT, op 0x23, format U (R50). -/
  | lit (a b : Word)
  deriving DecidableEq, Repr

/-- The two operand formats that share the request word (R36). -/
inductive Format where
  /-- Format B: both `a` and `b` are read. -/
  | binary
  /-- Format U: only `a` is read. -/
  | unary
  deriving DecidableEq, Repr

/-- The format column of the opcode map (R40). -/
def Instr.format : Instr → Format
  | .add _ _ | .sub _ _ | .mul _ _ | .div _ _ | .eq _ _ => .binary
  | .neg _ _ | .isZero _ _ | .isNaN _ _ | .isInf _ _ | .isNeg _ _ | .isSub _ _ | .isNorm _ _ | .expo _ _
  | .cvtu _ _ | .cvts _ _ | .cvti _ _ | .lit _ _ => .unary

/-- The same request with another word in the `b` field. -/
def Instr.withB (b : Word) : Instr → Instr
  | .add a _ => .add a b
  | .sub a _ => .sub a b
  | .mul a _ => .mul a b
  | .div a _ => .div a b
  | .neg a _ => .neg a b
  | .eq a _ => .eq a b
  | .isZero a _ => .isZero a b
  | .isNaN a _ => .isNaN a b
  | .isInf a _ => .isInf a b
  | .isNeg a _ => .isNeg a b
  | .isSub a _ => .isSub a b
  | .isNorm a _ => .isNorm a b
  | .expo a _ => .expo a b
  | .cvtu a _ => .cvtu a b
  | .cvts a _ => .cvts a b
  | .cvti a _ => .cvti a b
  | .lit a _ => .lit a b

/-- `FROMFLOAT dst, x` (R45, R57): LIT, with `b = 0` by the convention of R44. -/
abbrev Instr.fromFloat (x : Word) : Instr := .lit x 0

/-- `TOFLOAT dst, x` (R45, R91): LIT, with `b = 0` by the convention of R44. -/
abbrev Instr.toFloat (x : Word) : Instr := .lit x 0

/-- `BITS dst, x` (R45, R50): LIT, with `b = 0` by the convention of R44. -/
abbrev Instr.bits (x : Word) : Instr := .lit x 0

end Sys2Proof
end

