-- ==== Sys2Proof/WellFormed.lean ====
section
/-! DEFINITION. Which requests are well formed: all whose `op` is not reserved (30_encoding.md R41). The operand
fields need no check, since every 32-bit word is a value of some class (10_state.md R16, 30_encoding.md R43), so
every term of `Instr` is well formed by its type. -/

namespace Sys2Proof

/-- R41's list of reserved `op` values: 0x05..0x0F, 0x18..0x1F, 0x24..0x2F and 0x30..0xFF. -/
def reservedOp (op : BitVec 8) : Bool :=
  (0x05 ≤ op.toNat && op.toNat ≤ 0x0F) || (0x18 ≤ op.toNat && op.toNat ≤ 0x1F) ||
  (0x24 ≤ op.toNat && op.toNat ≤ 0x2F) || (0x30 ≤ op.toNat && op.toNat ≤ 0xFF)

/-- A request is well formed when its `op` field, bits 71 to 64, is not reserved (R34, R41). -/
def wellFormedRequest (r : Request) : Bool := !reservedOp (r.extractLsb' 64 8)

end Sys2Proof
end

