-- ==== Sys2Proof/Decode.lean ====
section
/-! DEFINITION. The decoder, total on all 72-bit request words, and the encoder (30_encoding.md R34, R39, R40, R41). -/

namespace Sys2Proof

/-- `req[71:64]` (R34). -/
def requestOp (r : Request) : BitVec 8 := r.extractLsb' 64 8

/-- `a = req[63:32]` (R34, R37). -/
def requestA (r : Request) : Word := r.extractLsb' 32 32

/-- `b = req[31:0]` (R34, R37). -/
def requestB (r : Request) : Word := r.extractLsb' 0 32

/-- Why a request word has no instruction. -/
inductive DecodeError where
  /-- The `op` value is not in the opcode map (R41). -/
  | reservedOp (op : BitVec 8)
  deriving DecidableEq, Repr

/-- The opcode map read from left to right (R40): all 8 bits of `op` are matched (R39), and every other value is
rejected by name (R41). -/
def decode (r : Request) : Except DecodeError Instr :=
  let a := requestA r
  let b := requestB r
  match (requestOp r).toNat with
  | 0x00 => .ok (.add a b)
  | 0x01 => .ok (.sub a b)
  | 0x02 => .ok (.mul a b)
  | 0x03 => .ok (.div a b)
  | 0x04 => .ok (.neg a b)
  | 0x10 => .ok (.eq a b)
  | 0x11 => .ok (.isZero a b)
  | 0x12 => .ok (.isNaN a b)
  | 0x13 => .ok (.isInf a b)
  | 0x14 => .ok (.isNeg a b)
  | 0x15 => .ok (.isSub a b)
  | 0x16 => .ok (.isNorm a b)
  | 0x17 => .ok (.expo a b)
  | 0x20 => .ok (.cvtu a b)
  | 0x21 => .ok (.cvts a b)
  | 0x22 => .ok (.cvti a b)
  | 0x23 => .ok (.lit a b)
  | _ => .error (.reservedOp (requestOp r))

/-- The decoder on a word numbered as the opcode table numbers it: bit 0 least significant, `op` at bits 71 to 64.
A word with a bit above 71 is no request (R34: "exactly one request length"). -/
def decodeTableWord (nbits w : Nat) : Option Instr :=
  let v := w % 2 ^ nbits
  if v < 2 ^ 72 then
    match decode (BitVec.ofNat 72 v) with
    | .ok i => some i
    | .error _ => none
  else none

/-- The request word `{op, a, b}` (R34). -/
def requestOf (op : BitVec 8) (a b : Word) : Request := op ++ a ++ b

/-- The encoder: the request word of an instruction, from the `op` column of the opcode map (R40). -/
def encode : Instr → Request
  | .add a b => requestOf 0x00 a b
  | .sub a b => requestOf 0x01 a b
  | .mul a b => requestOf 0x02 a b
  | .div a b => requestOf 0x03 a b
  | .neg a b => requestOf 0x04 a b
  | .eq a b => requestOf 0x10 a b
  | .isZero a b => requestOf 0x11 a b
  | .isNaN a b => requestOf 0x12 a b
  | .isInf a b => requestOf 0x13 a b
  | .isNeg a b => requestOf 0x14 a b
  | .isSub a b => requestOf 0x15 a b
  | .isNorm a b => requestOf 0x16 a b
  | .expo a b => requestOf 0x17 a b
  | .cvtu a b => requestOf 0x20 a b
  | .cvts a b => requestOf 0x21 a b
  | .cvti a b => requestOf 0x22 a b
  | .lit a b => requestOf 0x23 a b

end Sys2Proof
end

