-- ==== Sys2Proof/Config.lean ====
section
/-! DEFINITION. What the spec leaves open: the instance's `NAN_SENTINEL` (R5, R49, U2) and the words the
response port shows while `valid_out = 0` (R23, R117, U3). Each is an opaque constant: nothing in Lean
can evaluate it, so a theorem holds for every admissible value. `LATENCY` (R5, R122) is not here: it is
plain data of a request event (Machine/State.lean), log 4. -/

namespace Sys2Proof.Config

/-- The sign bit of the instance's `NAN_SENTINEL`, open (R49, U8). Log 3. -/
opaque nanSign : Bool

/-- The fraction of the instance's `NAN_SENTINEL`, less one: any of the 2^23 - 1 non-zero fractions (R49).
Log 3. -/
opaque nanIndex : Fin 8388607

/-- The word on `result` at the `n`-th time it is unspecified (U3: "any value"). Log 1. -/
opaque unspecifiedResult : Nat → Word

/-- The NaN word with sign `s` and fraction `k + 1`: exponent field 0xFF, fraction non-zero (R15). As `s` and
`k` vary this is every NaN word exactly once. -/
def nanWord (s : Bool) (k : Fin 8388607) : Word :=
  BitVec.ofBool s ++ 0xFF#8 ++ BitVec.ofNat 23 (k.val + 1)

/-- `NAN_SENTINEL`: one fixed NaN word per instance, constrained by nothing else (R5, R49). -/
def nanSentinel : Word := nanWord nanSign nanIndex

end Sys2Proof.Config
end

