-- ==== Sys2Proof/Machine/Layout.lean ====
section
/-! DEFINITION. The bit layout of a value word and its named constants (10_state.md R10; 00_scope.md R5;
40_layout_literal.md R46 to R49). -/

namespace Sys2Proof.Machine

/-- `SIGN_MASK`, bit 31 (R46). -/
def signMask : Word := 0x80000000

/-- `EXP_MASK`, bits 30 to 23 (R46). -/
def expMask : Word := 0x7F800000

/-- `MANT_MASK`, bits 22 to 0 (R46). -/
def mantMask : Word := 0x007FFFFF

/-- `IMPLICIT_ONE`, bit 23 (R46). -/
def implicitOne : Nat := 0x00800000

/-- `BIAS` (R47). -/
def bias : Int := 127

/-- `SUB_BIAS` (R47). -/
def subBias : Int := 126

/-- `POS_INF` (R48). -/
def posInf : Word := 0x7F800000

/-- `NEG_INF` (R48). -/
def negInf : Word := 0xFF800000

/-- `NAN_MIN` (R49); no rule returns it. -/
def nanMin : Word := 0x7F800001

/-- `NAN_MAX` (R49); no rule returns it. -/
def nanMax : Word := 0x7FFFFFFF

/-- `INT_SENTINEL` (R5, R88, R100). -/
def intSentinel : Word := 0x80000000

/-- `ALIGN_LIMIT`: the largest exponent gap that is aligned (R5, R72 step 3). -/
def alignLimit : Nat := 24

/-- `CVT_MAX` = 2 x (2^24 - 1) (R5, R53). -/
def cvtMax : Nat := 0x01FFFFFE

/-- `sign(w) = w[31]` (R8). -/
def sign (w : Word) : Bool := w.getLsbD 31

/-- `field(w) = w[30:23]` (R8). -/
def field (w : Word) : BitVec 8 := w.extractLsb' 23 8

/-- `frac(w) = w[22:0]` (R8). -/
def frac (w : Word) : BitVec 23 := w.extractLsb' 0 23

/-- `{s, field, frac}` (R10). -/
def pack (s : Bool) (f : BitVec 8) (m : BitVec 23) : Word := BitVec.ofBool s ++ f ++ m

/-- The zero with sign `s` (R11). -/
def signedZero (s : Bool) : Word := pack s 0x00 0

/-- The infinity with sign `s` (R14). -/
def signedInf (s : Bool) : Word := pack s 0xFF 0

/-- `neg32(w) = mod32(~w + 1)`: "bitwise complement + 1" (R7, R63 (a)). -/
def neg32 (w : Word) : Word := ~~~w + 1

end Sys2Proof.Machine
end

