-- ==== Sys2Proof/Machine/Flags.lean ====
section
/-! DEFINITION. There are no flags: no operation writes one (10_state.md R19). What a test yields is a truth value; here
are the classifier's signals (48_classification.md R94 to R99) and the result word of a truth value (30_encoding.md
R38). -/

namespace Sys2Proof.Machine

/-- `isZero(w) = (w[30:0] == 0)` (R94). -/
def isZero (w : Word) : Bool := w.extractLsb' 0 31 == 0

/-- `isNaN(w) = (w[30:23] == 0xFF and w[22:0] != 0)` (R95). -/
def isNaN (w : Word) : Bool := field w == 0xFF && frac w != 0

/-- `isInf(w) = (w == 0x7F800000 or w == 0xFF800000)` (R96). -/
def isInf (w : Word) : Bool := w == posInf || w == negInf

/-- `isNeg(w) = (w[31] == 1)`, for every class (R97). -/
def isNeg (w : Word) : Bool := sign w

/-- `isSub(w) = (w[30:23] == 0x00)`: true of the zeros too (R98). -/
def isSub (w : Word) : Bool := field w == 0x00

/-- `isNorm(w) = (w[30:23] != 0x00 and w[30:23] != 0xFF)` (R99). -/
def isNorm (w : Word) : Bool := field w != 0x00 && field w != 0xFF

/-- The result word of a truth value: 0x00000001 for true, 0x00000000 for false (R38). -/
def truthWord (t : Bool) : Word := if t then 0x00000001 else 0x00000000

end Sys2Proof.Machine
end

