-- ==== Sys2Proof/Machine/Operands.lean ====
section
/-! DEFINITION. How an operand word is read (30_encoding.md R37): as a value word, unpacked (42_arith_common.md R61), as
an unsigned integer, or as a two's-complement integer. There are no addressing modes, immediates or register
specifiers. -/

namespace Sys2Proof.Machine

/-- A finite operand taken apart; its value is `(-1)^sign x sig x 2^(exp - 23)` (R61). -/
structure Unpacked where
  sign : Bool
  /-- The mathematical exponent, an unbounded integer (R7, R64). -/
  exp : Int
  /-- The 24-bit significand, below 2^24. -/
  sig : Nat
  deriving DecidableEq, Repr

/-- `unpack(w)`, for a word that is neither NaN nor infinity (R61, R62). Bit 23 is clear in the fraction, so the rule's
`0x800000 | frac(w)` is the sum R13 writes. -/
def unpack (w : Word) : Unpacked :=
  if field w = 0 then
    { sign := sign w, exp := 0 - subBias, sig := (frac w).toNat }
  else
    { sign := sign w, exp := (field w).toNat - bias, sig := implicitOne + (frac w).toNat }

/-- An operand read as an unsigned 32-bit integer (R37, CVTU). -/
def asUnsigned (a : Word) : Nat := a.toNat

/-- The magnitude of an operand read as a two's-complement integer (R37, R55): the magnitude of -2^31 is 2^31. -/
def magnitude (a : Word) : Nat := if sign a then (neg32 a).toNat else a.toNat

end Sys2Proof.Machine
end

