-- ==== Sys2Proof/Machine/Normalise.lean ====
section
/-! DEFINITION. The machinery ADD, SUB, MUL and DIV share (42_arith_common.md): the normaliser and packer, `normpack`
(R65 to R69). Bits shifted out are dropped everywhere: there is no guard, round or sticky bit (R70). -/

namespace Sys2Proof.Machine

/-- The carry stage (R66): while `S >= 2^24`, shift right one place and increment the exponent. The first argument
bounds the number of shifts. -/
def carryStage : Nat → Int → Nat → Int × Nat
  | 0, e, S => (e, S)
  | n + 1, e, S => if 2 ^ 24 ≤ S then carryStage n (e + 1) (S >>> 1) else (e, S)

/-- The underflow stage (R67): below exponent -126 the significand is shifted right by `-126 - e` places, a shift of 25
or more giving zero outright. -/
def underflowStage (e : Int) (S : Nat) : Int × Nat :=
  if e < -126 then
    let sh := (-126 - e).toNat
    (-126, if 25 ≤ sh then 0 else S >>> sh)
  else (e, S)

/-- The cancellation stage (R68): while bit 23 is clear and `e > -126`, shift left one place and decrement the exponent.
The first argument bounds the number of shifts. -/
def cancelStage : Nat → Int → Nat → Int × Nat
  | 0, e, S => (e, S)
  | n + 1, e, S => if S.testBit 23 = false ∧ -126 < e then cancelStage n (e - 1) (S <<< 1) else (e, S)

/-- Overflow and pack (R69): an exponent above 127 is the signed infinity; otherwise the exponent is re-biased, by 127
when bit 23 is set and to field 0 when it is clear. -/
def packStage (s : Bool) (e : Int) (S : Nat) : Word :=
  if 127 < e then signedInf s
  else pack s (if S.testBit 23 then BitVec.ofInt 8 (e + bias) else 0) (BitVec.ofNat 23 S)

/-- `normpack(s, e, S)` for `S < 2^48` (R65): the result word of `(-1)^s x S x 2^(e - 23)`. At most 24 carry shifts bring
`S` below 2^24, and at most 23 cancellation shifts bring a non-zero `S` up to bit 23. -/
def normpack (s : Bool) (e : Int) (S : Nat) : Word :=
  if S = 0 then signedZero s
  else
    let c := carryStage 24 e S
    let u := underflowStage c.1 c.2
    if u.2 = 0 then signedZero s
    else
      let n := cancelStage 23 u.1 u.2
      packStage s n.1 n.2

/-- The NaN handler's test (R60), made by ADD, SUB, MUL and DIV before anything else is looked at. -/
def eitherNaN (a b : Word) : Bool := isNaN a || isNaN b

end Sys2Proof.Machine
end

