-- ==== Sys2Proof/Machine/State.lean ====
section
/-! DEFINITION. The block's state: the queue of accepted and unanswered requests and the response port (10_state.md
R22, R23; 30_encoding.md R35), with the port events still to come. There is no register, pc, flag, control register or
memory (R17 to R21, R24). -/

namespace Sys2Proof.Machine

/-- What the request port and the reset input carry in one step (R34, R114, R115). -/
inductive PortEvent where
  /-- `valid_in = 0`: no request (R34). -/
  | idle
  /-- `valid_in = 1` with the request word `req` (R34). `latency` is not sent by the host: it is this request's
  `LATENCY`, the block's open parameter, which may differ between requests (R5, R122). It stands here as plain data so
  that a statement over states holds for every value. Log 4. -/
  | request (req : Request) (latency : Nat)
  /-- The host resets the block (R115, R116). -/
  | reset
  deriving DecidableEq, Repr

/-- One accepted and unanswered request (R22), its operands captured when it was accepted (R120). -/
structure InFlight where
  /-- The request as decoded: `op`, `a`, `b`. -/
  request : Instr
  /-- How many more steps its `LATENCY` lasts. The model's own field, log 4. -/
  wait : Nat
  deriving DecidableEq, Repr

/-- The state of the block. -/
structure State where
  /-- What the host presents in the coming steps, the next one first; when it is used up the host presents nothing
  more (R103). Input, not storage of the block. Log 2. -/
  inbox : List PortEvent
  /-- The requests accepted but not yet answered, oldest first (R22, R30). -/
  inFlight : List InFlight
  /-- `valid_out` (R22, R35). -/
  validOut : Bool
  /-- The word on the response port (R35); a free value while `valid_out = 0` (R23, U3). -/
  result : Word
  /-- How many unspecified words the response port has shown: the model's own counter, to which the free value is
  applied. Log 1. -/
  draws : Nat
  deriving DecidableEq, Repr

/-- A fault: nothing on this hardware is one ("No operation, on any operand values, traps, faults, aborts, stalls or
withholds its response", R104), so the type has no constructor and no step can end in it (safe). -/
inductive Fault where
  deriving DecidableEq, Repr

/-- Why the model gives a request no meaning. -/
inductive Refusal where
  /-- Raised by `exec` for an instruction that has no meaning yet; no arm does so in this model. Safe. -/
  | notModelled (mnemonic : String)
  /-- Raised by `step` for a request whose `op` is reserved (R41: "A model refuses a request with a reserved op"). Safe:
  the host must not issue one. Log 5. -/
  | reservedOp (op : BitVec 8)
  deriving DecidableEq, Repr

/-- The block right after reset: no request in flight and `valid_out = 0` (R23, R117). `result` is unspecified, the
first draw of the free value (log 1), and the host has lined up nothing (log 2). -/
def State.reset : State :=
  { inbox := [], inFlight := [], validOut := false, result := Config.unspecifiedResult 0, draws := 1 }

end Sys2Proof.Machine
end

