-- ==== Sys2Proof/Machine/Ops.lean ====
section
/-! DEFINITION. The named operations on the ports and the queue. There is no register file and no memory to read or write
(10_state.md R17, R21; 20_memory.md R24), and no exception to take or return from (60_exceptions.md R104, R108, R109). -/

namespace Sys2Proof.Machine

/-- Present one response: the result word with `valid_out = 1` and nothing else (R35; no flag, no status, R19). Every
instruction's meaning ends in this operation. -/
def State.respond (s : State) (w : Word) : State := { s with validOut := true, result := w }

/-- Present no response: `valid_out = 0`, and the word on `result` is unspecified (R23, U3), so it is the next draw of
the free value (log 1). -/
def State.silent (s : State) : State :=
  { s with validOut := false, result := Config.unspecifiedResult s.draws, draws := s.draws + 1 }

/-- Accept one request behind those in flight (R30), with its LATENCY. -/
def State.accept (s : State) (i : Instr) (latency : Nat) : State :=
  { s with inFlight := s.inFlight ++ [{ request := i, wait := latency }] }

/-- One step of an entry's LATENCY passes. -/
def InFlight.tick (e : InFlight) : InFlight := { e with wait := e.wait - 1 }

/-- One step of LATENCY passes for every request in flight. -/
def State.tick (s : State) : State := { s with inFlight := s.inFlight.map InFlight.tick }

/-- The oldest request in flight, when its LATENCY has passed, and the state without it. A younger request never
overtakes it (R30, R35). -/
def State.due (s : State) : Option (Instr × State) :=
  match s.inFlight with
  | { request := i, wait := 0 } :: rest => some (i, { s with inFlight := rest })
  | _ => none

/-- The effect of reset: the in-flight queue is emptied, its requests get no response, and `valid_out = 0` (R23, R116).
The parameters and the host's later moves are untouched. -/
def State.applyReset (s : State) : State := { s with inFlight := [] }.silent

/-- What the ports carry in this step, and the state with that event consumed; nothing lined up is `valid_in = 0`. -/
def State.takeEvent (s : State) : PortEvent × State :=
  match s.inbox with
  | [] => (.idle, s)
  | e :: es => (e, { s with inbox := es })

/-- The request word stored where the next step takes its request, to be answered in that same step: nothing older in
flight, and LATENCY 0 for this request. Bits above `nbits` are zero. -/
def State.placeRequest (s : State) (nbits w : Nat) : State :=
  { s with inbox := .request (BitVec.ofNat 72 (w % 2 ^ nbits)) 0 :: s.inbox, inFlight := [] }

end Sys2Proof.Machine
end

