-- ==== Sys2Proof/Machine/AddSub.lean ====
section
/-! DEFINITION. NEG, ADD and SUB (43_add_sub_neg.md). -/

namespace Sys2Proof.Machine

/-- `a XOR 0x80000000`: only the sign bit flips, for every class (R71). -/
def negWord (a : Word) : Word := a ^^^ signMask

/-- Step 5: a negative operand's significand is two's-complemented in 32 bits (R72, R63 (a)). -/
def signedSig (s : Bool) (m : Nat) : Word := if s then neg32 (BitVec.ofNat 32 m) else BitVec.ofNat 32 m

/-- Steps 6 to 8: sign recovery on the 32-bit sum, then normalise and pack (R72). -/
def packSum (e : Int) (sum : Word) : Word :=
  if sum.getLsbD 31 then normpack true e (neg32 sum).toNat else normpack false e sum.toNat

/-- Steps 2 to 8 once the operands are ordered: `wB` is the big operand's word (R72). A gap above 24 returns it
verbatim; otherwise the small significand is shifted right by the gap, its low bits dropped. -/
def addOrdered (wB : Word) (big small : Unpacked) : Word :=
  let d := (big.exp - small.exp).toNat
  if alignLimit < d then wB
  else packSum big.exp (signedSig big.sign big.sig + signedSig small.sign (small.sig >>> d))

/-- ADD on finite operands: steps 1 and 2, with `a` the big operand on a tie (R72). -/
def addFinite (a b : Word) : Word :=
  let ua := unpack a
  let ub := unpack b
  if ua.exp < ub.exp then addOrdered b ub ua else addOrdered a ua ub

/-- ADD in full, special operands first (R60, R72, R73). -/
def addWord (a b : Word) : Word :=
  if eitherNaN a b then Config.nanSentinel
  else if isInf a && isInf b then (if a = b then a else Config.nanSentinel)
  else if isInf a then a
  else if isInf b then b
  else addFinite a b

/-- ADD (R72). -/
def execAdd (a b : Word) (s : State) : Host.Outcome State Fault Refusal := .next (s.respond (addWord a b))

/-- SUB: `ADD(a, NEG(b))`, special operands included (R77). -/
def execSub (a b : Word) (s : State) : Host.Outcome State Fault Refusal :=
  .next (s.respond (addWord a (negWord b)))

/-- NEG; `b` is ignored (R71). -/
def execNeg (a _b : Word) (s : State) : Host.Outcome State Fault Refusal := .next (s.respond (negWord a))

end Sys2Proof.Machine
end

