-- ==== Sys2Proof/Machine/Compare.lean ====
section
/-! DEFINITION. EQ (46_equality.md) and the classification operations (48_classification.md). -/

namespace Sys2Proof.Machine

/-- EQ: all 32 bits compared, with one override: false when either operand is a NaN (R86). +0 and -0 differ. -/
def equalWords (a b : Word) : Bool := if isNaN a || isNaN b then false else a == b

/-- EQ (R86). -/
def execEq (a b : Word) (s : State) : Host.Outcome State Fault Refusal :=
  .next (s.respond (truthWord (equalWords a b)))

/-- ISZERO (R94). -/
def execIsZero (a _b : Word) (s : State) : Host.Outcome State Fault Refusal :=
  .next (s.respond (truthWord (isZero a)))

/-- ISNAN (R95). -/
def execIsNaN (a _b : Word) (s : State) : Host.Outcome State Fault Refusal :=
  .next (s.respond (truthWord (isNaN a)))

/-- ISINF (R96). -/
def execIsInf (a _b : Word) (s : State) : Host.Outcome State Fault Refusal :=
  .next (s.respond (truthWord (isInf a)))

/-- ISNEG (R97). -/
def execIsNeg (a _b : Word) (s : State) : Host.Outcome State Fault Refusal :=
  .next (s.respond (truthWord (isNeg a)))

/-- ISSUB (R98). -/
def execIsSub (a _b : Word) (s : State) : Host.Outcome State Fault Refusal :=
  .next (s.respond (truthWord (isSub a)))

/-- ISNORM (R99). -/
def execIsNorm (a _b : Word) (s : State) : Host.Outcome State Fault Refusal :=
  .next (s.respond (truthWord (isNorm a)))

/-- The mathematical exponent as a two's-complement word, the sentinel for NaN and infinity (R100). -/
def exponentWord (a : Word) : Word :=
  if field a = 0xFF then intSentinel
  else if field a = 0x00 then BitVec.ofInt 32 (0 - subBias)
  else BitVec.ofInt 32 ((field a).toNat - bias)

/-- EXPO (R100). -/
def execExpo (a _b : Word) (s : State) : Host.Outcome State Fault Refusal := .next (s.respond (exponentWord a))

end Sys2Proof.Machine
end

