-- ==== Sys2Proof/Machine/Convert.lean ====
section
/-! DEFINITION. Construction and conversion: CVTU, CVTS (41_construction.md), CVTI (47_conversion.md) and LIT
(40_layout_literal.md). -/

namespace Sys2Proof.Machine

/-- The constructor's loop: shift left until bit 23 is set, counting the shifts (R53). The first argument bounds their
number. -/
def leadingShift : Nat → Nat → Int → Nat × Int
  | 0, v, shifts => (v, shifts)
  | n + 1, v, shifts => if v.testBit 23 = false then leadingShift n (v <<< 1) (shifts + 1) else (v, shifts)

/-- CVTU of the integer `n` (R53). With bit 24 set the value is shifted right one place, bit 0 dropped, and
`shifts = -1`; at most 23 left shifts are needed otherwise. -/
def fromUnsigned (n : Nat) : Word :=
  if n = 0 then 0x00000000
  else if cvtMax < n then Config.nanSentinel
  else
    let p : Nat × Int := if n.testBit 24 then (n >>> 1, -1) else leadingShift 23 n 0
    pack false (BitVec.ofInt 8 (bias + 23 - p.2)) (BitVec.ofNat 23 p.1)

/-- CVTS: the constructor on the magnitude, with the sign copied except into a zero or `NAN_SENTINEL` (R55). -/
def fromSigned (a : Word) : Word :=
  let mag := magnitude a
  let r := fromUnsigned mag
  if mag = 0 then 0x00000000
  else if cvtMax < mag then Config.nanSentinel
  else pack (sign a) (field r) (frac r)

/-- CVTU; `b` is ignored (R53). -/
def execCvtu (a _b : Word) (s : State) : Host.Outcome State Fault Refusal :=
  .next (s.respond (fromUnsigned (asUnsigned a)))

/-- CVTS; `b` is ignored (R55). -/
def execCvts (a _b : Word) (s : State) : Host.Outcome State Fault Refusal := .next (s.respond (fromSigned a))

/-- The magnitude CVTI returns for a finite operand of exponent below 31 (R88 to R90): shifted left above exponent 23,
else right, truncating toward zero, a shift of 24 or more giving zero. -/
def integerPart (u : Unpacked) : Nat :=
  if 23 < u.exp then u.sig <<< (u.exp - 23).toNat
  else
    let sh := (23 - u.exp).toNat
    if 24 ≤ sh then 0 else u.sig >>> sh

/-- CVTI (R88): NaN, infinity and every magnitude of 2^31 or more give the sentinel. -/
def toInteger (a : Word) : Word :=
  if isNaN a || isInf a then intSentinel
  else if isZero a then 0x00000000
  else
    let u := unpack a
    if 31 ≤ u.exp then intSentinel
    else
      let mag := BitVec.ofNat 32 (integerPart u)
      if u.sign then neg32 mag else mag

/-- CVTI; `b` is ignored (R88). -/
def execCvti (a _b : Word) (s : State) : Host.Outcome State Fault Refusal := .next (s.respond (toInteger a))

/-- LIT: the word unchanged, NaN payloads and signs included; `b` is ignored (R50). It also serves the native-float
constructions and the raw-bits accessor (R57, R91). -/
def execLit (a _b : Word) (s : State) : Host.Outcome State Fault Refusal := .next (s.respond a)

end Sys2Proof.Machine
end

