-- ==== Sys2Proof/Machine/MulDiv.lean ====
section
/-! DEFINITION. MUL (44_mul.md) and DIV (45_div.md). -/

namespace Sys2Proof.Machine

/-- MUL on finite operands: the exact 48-bit product with its low 23 bits dropped, then normalise (R79, R63 (b)). -/
def mulFinite (s : Bool) (a b : Word) : Word :=
  let ua := unpack a
  let ub := unpack b
  normpack s (ua.exp + ub.exp) ((ua.sig * ub.sig) >>> 23)

/-- MUL in full, special operands first (R60, R79, R80). -/
def mulWord (a b : Word) : Word :=
  if eitherNaN a b then Config.nanSentinel
  else
    let s := sign a ^^ sign b
    if isInf a || isInf b then
      (if isZero a || isZero b then Config.nanSentinel else signedInf s)
    else mulFinite s a b

/-- MUL (R79). -/
def execMul (a b : Word) (s : State) : Host.Outcome State Fault Refusal := .next (s.respond (mulWord a b))

/-- DIV on finite operands, `b` non-zero: the significand quotient, with the exponent DIVISOR minus DIVIDEND, which the
source says is intentional (R82, R84). -/
def divFinite (s : Bool) (a b : Word) : Word :=
  let ua := unpack a
  let ub := unpack b
  normpack s (ub.exp - ua.exp) ((ua.sig <<< 23) / ub.sig)

/-- DIV in full, tested in the order of R83: NaN, zero divisor, infinite dividend, infinite divisor (R60, R82, R107). -/
def divWord (a b : Word) : Word :=
  if eitherNaN a b then Config.nanSentinel
  else if isZero b then Config.nanSentinel
  else
    let s := sign a ^^ sign b
    if isInf a then (if isInf b then Config.nanSentinel else signedInf s)
    else if isInf b then signedZero s
    else divFinite s a b

/-- DIV (R82). -/
def execDiv (a b : Word) (s : State) : Host.Outcome State Fault Refusal := .next (s.respond (divWord a b))

end Sys2Proof.Machine
end

