-- ==== Sys2Proof/Machine/Dispatch.lean ====
section
/-! DEFINITION. `exec(op, a, b)` by the rule the opcode map names (30_encoding.md R40; 60_exceptions.md R103). -/

namespace Sys2Proof.Machine

def exec (i : Instr) (s : State) : Host.Outcome State Fault Refusal :=
  match i with
  | .add a b => Sys2Proof.Machine.execAdd a b s
  | .sub a b => Sys2Proof.Machine.execSub a b s
  | .mul a b => Sys2Proof.Machine.execMul a b s
  | .div a b => Sys2Proof.Machine.execDiv a b s
  | .neg a b => Sys2Proof.Machine.execNeg a b s
  | .eq a b => Sys2Proof.Machine.execEq a b s
  | .isZero a b => Sys2Proof.Machine.execIsZero a b s
  | .isNaN a b => Sys2Proof.Machine.execIsNaN a b s
  | .isInf a b => Sys2Proof.Machine.execIsInf a b s
  | .isNeg a b => Sys2Proof.Machine.execIsNeg a b s
  | .isSub a b => Sys2Proof.Machine.execIsSub a b s
  | .isNorm a b => Sys2Proof.Machine.execIsNorm a b s
  | .expo a b => Sys2Proof.Machine.execExpo a b s
  | .cvtu a b => Sys2Proof.Machine.execCvtu a b s
  | .cvts a b => Sys2Proof.Machine.execCvts a b s
  | .cvti a b => Sys2Proof.Machine.execCvti a b s
  | .lit a b => Sys2Proof.Machine.execLit a b s

end Sys2Proof.Machine
end

