-- ==== Sys2Proof/Machine/Step.lean ====
section
/-! DEFINITION. One step of the block (60_exceptions.md R103): take what the ports carry, then give the response port to
the oldest request in flight if its LATENCY has passed. -/

namespace Sys2Proof.Machine

/-- The response half of a step: the oldest request is executed and answered when it is due, and otherwise no response
is presented (R30, R35); one step of LATENCY passes for the requests that stay in flight. -/
def answerOldest (s : State) : Host.Outcome State Fault Refusal :=
  match s.due with
  | some (i, t) => exec i t.tick
  | none => .next s.tick.silent

/-- One step. A reset drops what is in flight (R116); a request is decoded and accepted, or refused by name when its op
is reserved (R41); with LATENCY 0 and nothing older in flight its response is in the same step (R121). -/
def step (s : State) : Host.Outcome State Fault Refusal :=
  match s.takeEvent with
  | (.reset, t) => .next t.applyReset
  | (.idle, t) => answerOldest t
  | (.request req latency, t) =>
    match decode req with
    | .error (.reservedOp op) => .refused (.reservedOp op)
    | .ok i => answerOldest (t.accept i latency)

/-- The state whose next step takes, executes and answers exactly the request word `w`. -/
def State.withFetchWord (s : State) (nbits w : Nat) : State := s.placeRequest nbits w

end Sys2Proof.Machine
end

