-- ==== Sys2Proof/Safety.lean ====
section
/-! DEFINITION. The terms in which claims about the block are stated: what a response is, what a host that keeps its
obligations does, the invariants, and closed forms that the step-by-step machinery is compared with. The machine uses
none of these. -/

namespace Sys2Proof.Machine

/-- What the host sees on the response port after a step: a word when `valid_out = 1` (R35, R114). -/
def State.response (s : State) : Option Word := if s.validOut then some s.result else none

/-- The result word of a request, read off `exec` at the reset state; R22 says any other state gives the same. -/
def answerOf (i : Instr) : Option Word :=
  match exec i State.reset with
  | .next t => some t.result
  | .fault _ => none
  | .refused _ => none

/-- The answers still to come for the requests in flight, in their order (R30). -/
def State.owed (s : State) : List (Option Word) := s.inFlight.map fun e => answerOf e.request

/-- The request a port event carries, when it is one the block accepts. -/
def PortEvent.accepted : PortEvent → Option Instr
  | .idle => none
  | .request r _ => (decode r).toOption
  | .reset => none

/-- `n` steps, with the responses delivered on the way, in order; none when a step does not give a next state. -/
def trace : Nat → State → Option (List Word × State)
  | 0, s => some ([], s)
  | n + 1, s =>
    match step s with
    | .next t => (trace n t).map fun p => (t.response.toList ++ p.1, p.2)
    | .fault _ => none
    | .refused _ => none

/-- The host issues no reserved op (R114, R41). -/
def HostObeys (s : State) : Prop := ∀ r l, PortEvent.request r l ∈ s.inbox → wellFormedRequest r = true

/-- When every LATENCY to come is at most `L`: at most `L` requests are in flight, and a request whose LATENCY has not
passed still has fewer steps to wait than `L` less the number of requests behind it. -/
def PipelineWithin (L : Nat) (s : State) : Prop :=
  (∀ r l, PortEvent.request r l ∈ s.inbox → l ≤ L) ∧
  s.inFlight.length ≤ L ∧
  ∀ k (h : k < s.inFlight.length),
    s.inFlight[k].wait = 0 ∨ s.inFlight[k].wait + (s.inFlight.length - 1 - k) < L

/-- A finite word: neither NaN nor infinity (R61). -/
def isFinite (w : Word) : Bool := field w != 0xFF

/-- `(-1)^s x m` as an integer. -/
def signedInt (s : Bool) (m : Nat) : Int := if s then -(m : Int) else (m : Int)

/-- Steps 4 to 6 of ADD over the integers: the small significand divided by two to the gap, dropping the remainder, and
an exact signed sum. -/
def alignedSum (big small : Unpacked) : Int :=
  signedInt big.sign big.sig + signedInt small.sign (small.sig / 2 ^ (big.exp - small.exp).toNat)

/-- The word of `(-1)^s x S x 2^(e - 23)` truncated toward zero, in closed form: with the leading one of `S` at bit
`Nat.log2 S` its exponent is `e + log2 S - 23`; above 127 the result is the infinity, from -126 up the 24 bits from the
leading one down are kept, and below that the bits from 2^-149 up. -/
def truncated (s : Bool) (e : Int) (S : Nat) : Word :=
  if S = 0 then pack s 0 0
  else
    let E : Int := e + S.log2 - 23
    if 127 < E then pack s 0xFF 0
    else if -126 ≤ E then pack s (BitVec.ofInt 8 (E + 127)) (BitVec.ofNat 23 (S * 2 ^ 23 / 2 ^ S.log2))
    else pack s 0 (BitVec.ofNat 23 (S * 2 ^ (e + 126).toNat / 2 ^ (-126 - e).toNat))

end Sys2Proof.Machine
end

