-- ==== Sys2Proof/Certificates/Slice0/Obligations.lean ====
section
/-! DEFINITION. The statements for the provers, from the numbered rules of spec/. A conclusion of the form
`exec i s = .next { s with validOut := true, result := w }` says at once that the instruction completes, what its result
is, and its frame: the queue, the host's events and the model's counter are unchanged, and the block has no other state
(R17 to R21). -/

open Sys2Proof Sys2Proof.Machine

/-! ### Encoding -/

/-- Decoding the encoding of any request gives it back, with both operand words at every value (R34, R37, R40). Every
term of `Instr` is well formed. -/
def Obligations.DecodeOfEncodeIsIdentity : Prop := ∀ i : Instr, decode (encode i) = .ok i

/-- Encoding what was decoded gives the request word back: no bit of it is dropped, the ignored `b` of format U included
(R34, R36). -/
def Obligations.EncodeOfDecodeIsIdentity : Prop := ∀ (r : Request) (i : Instr), decode r = .ok i → encode i = r

/-- R41: exactly the listed op values are reserved, 239 of them; such a request is refused and gets no result. The
clause on the step holds of every state, one with older requests in flight or due among them: that the run stops there
even then is the model's reading (DEDUCED, log 5), not a sentence of the rule. -/
def Obligations.ReservedOpsAreRefused : Prop :=
  (∀ (op : BitVec 8) (a b : Word),
    ((0x05 ≤ op.toNat ∧ op.toNat ≤ 0x0F) ∨ (0x18 ≤ op.toNat ∧ op.toNat ≤ 0x1F) ∨
      (0x24 ≤ op.toNat ∧ op.toNat ≤ 0x2F) ∨ (0x30 ≤ op.toNat ∧ op.toNat ≤ 0xFF)) →
    decode (op ++ a ++ b) = .error (.reservedOp op) ∧
    ∀ (s : State) (l : Nat) (es : List PortEvent),
      s.inbox = .request (op ++ a ++ b) l :: es → step s = .refused (.reservedOp op)) ∧
  (∀ (op : BitVec 8) (a b : Word),
    (∃ o, decode (op ++ a ++ b) = .error o) →
      ((0x05 ≤ op.toNat ∧ op.toNat ≤ 0x0F) ∨ (0x18 ≤ op.toNat ∧ op.toNat ≤ 0x1F) ∨
        (0x24 ≤ op.toNat ∧ op.toNat ≤ 0x2F) ∨ (0x30 ≤ op.toNat ∧ op.toNat ≤ 0xFF))) ∧
  ((List.range 256).filter fun n => reservedOp (BitVec.ofNat 8 n)).length = 239

/-- R43: for a non-reserved op every combination of `a` and `b` decodes, and `exec` gives it a result in every state. -/
def Obligations.EveryUnreservedRequestIsAnswered : Prop :=
  ∀ (op : BitVec 8) (a b : Word), reservedOp op = false →
    ∃ i, decode (op ++ a ++ b) = .ok i ∧
      ∃ w, answerOf i = some w ∧ ∀ s : State, exec i s = .next { s with validOut := true, result := w }

/-- Request words written out from R34 and R40, one for each group of operations, decode to their operations. -/
def Obligations.WrittenRequestsDecode : Prop :=
  decode 0x0042C8000041C80000 = .ok (.add 0x42C80000 0x41C80000) ∧
  decode 0x033F80000000000000 = .ok (.div 0x3F800000 0) ∧
  decode 0x103F8000003F800001 = .ok (.eq 0x3F800000 0x3F800001) ∧
  decode 0x177F80000100000000 = .ok (.expo 0x7F800001 0) ∧
  decode 0x21FE00000200000000 = .ok (.cvts 0xFE000002 0) ∧
  decode 0x233F800000DEADBEEF = .ok (.lit 0x3F800000 0xDEADBEEF) ∧
  decode 0x053F8000003F800000 = .error (.reservedOp 0x05)

/-! ### The step -/

/-- R103: with nothing older in flight and LATENCY 0, the step that is presented a request is `exec` of the decoded
request, at the state whose inbox has moved past that event. That LATENCY 0 means the same step is the model's (log 9). -/
def Obligations.StepRunsTheDecodedRequest : Prop :=
  ∀ (s : State) (r : Request) (i : Instr) (es : List PortEvent),
    s.inFlight = [] → s.inbox = .request r 0 :: es → decode r = .ok i →
    step s = exec i { s with inbox := es }

/-- R30: when the oldest request in flight is due, the step is `exec` of that request, whatever the port carries (but a
reset or a reserved op); a request presented meanwhile goes behind the others, and one step of LATENCY passes (the count
in steps is the model's, log 4). -/
def Obligations.StepAnswersTheOldestDueRequest : Prop :=
  ∀ (s : State) (i : Instr) (rest : List InFlight), s.inFlight = { request := i, wait := 0 } :: rest →
    (s.inbox = [] → step s = exec i { s with inFlight := rest.map fun e => InFlight.mk e.request (e.wait - 1) }) ∧
    (∀ es, s.inbox = .idle :: es →
      step s = exec i { s with inbox := es, inFlight := rest.map fun e => InFlight.mk e.request (e.wait - 1) }) ∧
    (∀ r l j es, s.inbox = .request r l :: es → decode r = .ok j →
      step s = exec i
        { s with
          inbox := es
          inFlight := (rest ++ [InFlight.mk j l]).map fun e => InFlight.mk e.request (e.wait - 1) })

/-- When no request in flight is due, the step presents no response and loses no request; a request that is presented is
kept behind the others. Nothing is said of `result` then (R23, U3). The count of LATENCY in steps is the model's (log 4). -/
def Obligations.StepPresentsNothingWhenNothingIsDue : Prop :=
  ∀ s : State,
    (s.inbox = [] ∨ (∃ es, s.inbox = .idle :: es) →
      (∀ i rest, s.inFlight ≠ { request := i, wait := 0 } :: rest) →
      ∃ t, step s = .next t ∧ t.validOut = false ∧ t.inbox = s.inbox.tail ∧
        t.inFlight = s.inFlight.map fun e => InFlight.mk e.request (e.wait - 1)) ∧
    (∀ r l j es, s.inbox = .request r l :: es → decode r = .ok j →
      (∀ i rest, s.inFlight ++ [InFlight.mk j l] ≠ { request := i, wait := 0 } :: rest) →
      ∃ t, step s = .next t ∧ t.validOut = false ∧ t.inbox = es ∧
        t.inFlight = (s.inFlight ++ [InFlight.mk j l]).map fun e => InFlight.mk e.request (e.wait - 1))

/-- R116: reset empties the queue, its requests getting no response, clears `valid_out`, and changes nothing of what the
host does next. The first request after it, however many idle steps later and whatever its LATENCY `L`, is answered like
any other: no response is presented before, and `L` steps after the step that accepts it its answer is, with the requests
presented meanwhile in flight behind it. The model's choices in this: a reset takes a step of its own (log 6), LATENCY is
counted in steps (log 4), and LATENCY 0 is answered in the accepting step itself (log 9). No reset and no reserved op may
come in those `L` steps, because a reset would drop the request and a reserved op would end the run. -/
def Obligations.ResetDropsTheRequestsInFlight : Prop :=
  ∀ (s : State) (es : List PortEvent), s.inbox = .reset :: es →
    ∃ t, step s = .next t ∧ t.inFlight = [] ∧ t.validOut = false ∧ t.response = none ∧ t.inbox = es ∧
      ∀ (m L : Nat) (r : Request) (i : Instr) (later : List PortEvent),
        es = List.replicate m .idle ++ .request r L :: later → decode r = .ok i →
        PortEvent.reset ∉ later.take L →
        (∀ r' l', PortEvent.request r' l' ∈ later.take L → wellFormedRequest r' = true) →
        (∀ k, k < m + L → ∃ u, Sys2Proof.core.run (k + 1) t = .next u ∧ State.response u = none) ∧
        ∃ u, Sys2Proof.core.run (m + L + 1) t = .next u ∧ State.response u = answerOf i ∧ answerOf i ≠ none ∧
          State.inbox u = later.drop L ∧
          (State.inFlight u).map InFlight.request = (later.take L).filterMap PortEvent.accepted

/-- R23: the reset state has nothing in flight and `valid_out = 0`; the invariants stated below hold of it. The empty
inbox is the model's choice (log 2). -/
def Obligations.ResetStateIsIdle : Prop :=
  State.reset.inFlight = [] ∧ State.reset.validOut = false ∧ State.reset.response = none ∧
  HostObeys State.reset ∧ ∀ L, PipelineWithin L State.reset

/-! ### Whole-machine rules -/

/-- R30: over any number of steps without a reset, the responses delivered, followed by those still owed, are the answers
of the requests in flight at the start and of the requests accepted since, in that order and each exactly once. -/
def Obligations.ResponsesFollowRequestOrder : Prop :=
  ∀ (n : Nat) (s t : State) (rs : List Word),
    PortEvent.reset ∉ s.inbox.take n → trace n s = some (rs, t) →
    rs.map some ++ t.owed = s.owed ++ ((s.inbox.take n).filterMap PortEvent.accepted).map answerOf

/-- R123: once the host presents nothing more, every request in flight is answered, in order; then nothing is in flight
(R124). That as many steps as the longest wait and the queue's length together are enough is the model's count of LATENCY
in steps (DESIGN CHOICE, log 4); the rule says eventually. -/
def Obligations.EveryRequestInFlightIsAnswered : Prop :=
  ∀ (s : State) (L n : Nat), s.inbox = [] → (∀ e ∈ s.inFlight, e.wait ≤ L) → L + s.inFlight.length ≤ n →
    ∃ rs t, trace n s = some (rs, t) ∧ rs.map some = s.owed ∧ t.inFlight = [] ∧ t.inbox = []

/-- A lone request of LATENCY `L` is answered exactly `L` steps after the step that accepts it, and no response is
presented before (R35, R121). The counting of LATENCY in steps, from the accepting step itself, is the model's (logs 4
and 9). -/
def Obligations.LoneRequestIsAnsweredAfterItsLatency : Prop :=
  ∀ (s : State) (i : Instr) (L : Nat), s.inFlight = [] → s.inbox = [.request (encode i) L] →
    (∀ k, k < L → ∃ t, Sys2Proof.core.run (k + 1) s = .next t ∧ State.response t = none) ∧
    ∃ t, Sys2Proof.core.run (L + 1) s = .next t ∧ State.response t = answerOf i ∧ State.inFlight t = [] ∧
      answerOf i ≠ none

/-- When no LATENCY exceeds `L`, a step keeps the queue within `L` requests, by the model's count of LATENCY in steps
(log 4). -/
def Obligations.PipelineDepthStaysWithinLatency : Prop :=
  ∀ (L : Nat) (s t : State), PipelineWithin L s → step s = .next t → PipelineWithin L t

/-- R104 with the host's side of R114: as long as the host issues no reserved op, a step always gives a next state, and
that stays so. -/
def Obligations.ObedientHostIsNeverRefused : Prop :=
  ∀ s : State, HostObeys s → ∃ t, step s = .next t ∧ HostObeys t

/-- R22, R27: every operation presents one response, changes nothing else, and its result is the same word in every
state. -/
def Obligations.ResultDependsOnTheRequestAlone : Prop :=
  ∃ f : Instr → Word, ∀ (i : Instr) (s : State),
    answerOf i = some (f i) ∧
    exec i s =
      .next { inbox := s.inbox, inFlight := s.inFlight, validOut := true, result := f i, draws := s.draws }

/-- R36: in the twelve operations of format U, `b` has no influence; the other five are those of format B, and in each
of them both `b` and `a` have influence. -/
def Obligations.UnaryOperationsIgnoreB : Prop :=
  (∀ (i : Instr) (b : Word) (s : State), i.format = .unary → exec (i.withB b) s = exec i s) ∧
  (∀ i : Instr, i.format = .binary ↔
    ∃ a b, i = .add a b ∨ i = .sub a b ∨ i = .mul a b ∨ i = .div a b ∨ i = .eq a b) ∧
  (∀ s : State,
    (∃ a b b', exec (.add a b) s ≠ exec (.add a b') s) ∧ (∃ a b b', exec (.sub a b) s ≠ exec (.sub a b') s) ∧
    (∃ a b b', exec (.mul a b) s ≠ exec (.mul a b') s) ∧ (∃ a b b', exec (.div a b) s ≠ exec (.div a b') s) ∧
    (∃ a b b', exec (.eq a b) s ≠ exec (.eq a b') s)) ∧
  (∀ s : State,
    (∃ a a' b, exec (.add a b) s ≠ exec (.add a' b) s) ∧ (∃ a a' b, exec (.sub a b) s ≠ exec (.sub a' b) s) ∧
    (∃ a a' b, exec (.mul a b) s ≠ exec (.mul a' b) s) ∧ (∃ a a' b, exec (.div a b) s ≠ exec (.div a' b) s) ∧
    (∃ a a' b, exec (.eq a b) s ≠ exec (.eq a' b) s))

/-- R49: `NAN_SENTINEL` is a NaN, equal to nothing under EQ, and the words it ranges over are exactly the NaN words. -/
def Obligations.NanSentinelIsANaN : Prop :=
  (∀ (b : Word) (s : State), exec (.isNaN Config.nanSentinel b) s = .next { s with validOut := true, result := 1 }) ∧
  (∀ (x : Word) (s : State), exec (.eq Config.nanSentinel x) s = .next { s with validOut := true, result := 0 }) ∧
  ∀ w : Word, isNaN w = true ↔ ∃ g k, w = Config.nanWord g k

/-! ### Unpacking and packing -/

/-- R61: the sign, mathematical exponent and significand of a finite word, and their ranges. -/
def Obligations.UnpackGivesSignExponentAndSignificand : Prop :=
  ∀ w : Word, w.toNat / 2 ^ 23 % 256 ≠ 255 →
    (unpack w).sign = decide (2 ^ 31 ≤ w.toNat) ∧
    (w.toNat / 2 ^ 23 % 256 = 0 → (unpack w).exp = -126 ∧ (unpack w).sig = w.toNat % 2 ^ 23) ∧
    (w.toNat / 2 ^ 23 % 256 ≠ 0 →
      (unpack w).exp = (w.toNat / 2 ^ 23 % 256 : Nat) - 127 ∧ (unpack w).sig = 2 ^ 23 ||| w.toNat % 2 ^ 23) ∧
    (unpack w).sig < 2 ^ 24 ∧ -126 ≤ (unpack w).exp ∧ (unpack w).exp ≤ 127

/-- R65 to R69: the stages together are one truncation, for every significand below 2^48 and every exponent. -/
def Obligations.NormaliserHasAClosedForm : Prop :=
  ∀ (s : Bool) (e : Int) (S : Nat), S < 2 ^ 48 → normpack s e S = truncated s e S

/-- R69: `normpack` never returns a NaN. -/
def Obligations.NormaliserReturnsNoNaN : Prop :=
  ∀ (s : Bool) (e : Int) (S : Nat), S < 2 ^ 48 → isNaN (normpack s e S) = false

/-- R64: the exponents of a product, a quotient and a sum, before and after the carry stage, which leaves a significand
below 2^24. -/
def Obligations.ExponentsStayInRange : Prop :=
  ∀ a b : Word, isFinite a = true → isFinite b = true →
    (∀ e S, e = (unpack a).exp + (unpack b).exp → S = ((unpack a).sig * (unpack b).sig) >>> 23 →
      -252 ≤ e ∧ e ≤ 254 ∧ e ≤ (carryStage 24 e S).1 ∧ (carryStage 24 e S).1 ≤ 255 ∧
        (carryStage 24 e S).2 < 2 ^ 24) ∧
    (∀ e S, e = (unpack b).exp - (unpack a).exp → S = ((unpack a).sig <<< 23) / (unpack b).sig → isZero b = false →
      -253 ≤ e ∧ e ≤ 253 ∧ e ≤ (carryStage 24 e S).1 ∧ (carryStage 24 e S).1 ≤ 253 ∧
        (carryStage 24 e S).2 < 2 ^ 24) ∧
    (∀ d e S, e = (unpack a).exp → S ≤ (unpack a).sig + (unpack b).sig >>> d →
      -126 ≤ e ∧ (carryStage 24 e S).1 ≤ 128 ∧ (carryStage 24 e S).2 < 2 ^ 24)

/-! ### ADD, SUB, NEG -/

/-- R60: ADD, SUB, MUL and DIV with a NaN operand give `NAN_SENTINEL`, whatever the other operand. -/
def Obligations.ArithmeticPropagatesNaN : Prop :=
  ∀ (a b : Word) (s : State), isNaN a = true ∨ isNaN b = true →
    exec (.add a b) s = .next { s with validOut := true, result := Config.nanSentinel } ∧
    exec (.sub a b) s = .next { s with validOut := true, result := Config.nanSentinel } ∧
    exec (.mul a b) s = .next { s with validOut := true, result := Config.nanSentinel } ∧
    exec (.div a b) s = .next { s with validOut := true, result := Config.nanSentinel }

/-- R72 and R73: ADD in full. On finite operands the 32-bit two's-complement datapath and the normaliser's stages are
compared with an exact integer sum, truncated once. -/
def Obligations.AddComputesItsRule : Prop :=
  ∀ (a b : Word) (s : State),
    decode (0x00#8 ++ a ++ b) = .ok (.add a b) ∧
    (isNaN a = true ∨ isNaN b = true →
      exec (.add a b) s = .next { s with validOut := true, result := Config.nanSentinel }) ∧
    (isInf a = true → isInf b = true →
      exec (.add a b) s =
        .next { s with validOut := true, result := if a = b then a else Config.nanSentinel }) ∧
    (isInf a = true → isFinite b = true → exec (.add a b) s = .next { s with validOut := true, result := a }) ∧
    (isFinite a = true → isInf b = true → exec (.add a b) s = .next { s with validOut := true, result := b }) ∧
    (isFinite a = true → isFinite b = true → (unpack b).exp ≤ (unpack a).exp →
      (24 < (unpack a).exp - (unpack b).exp → exec (.add a b) s = .next { s with validOut := true, result := a }) ∧
      ((unpack a).exp - (unpack b).exp ≤ 24 →
        exec (.add a b) s =
          .next
            { s with
              validOut := true
              result :=
                truncated (decide (alignedSum (unpack a) (unpack b) < 0)) (unpack a).exp
                  (alignedSum (unpack a) (unpack b)).natAbs })) ∧
    (isFinite a = true → isFinite b = true → (unpack a).exp < (unpack b).exp →
      (24 < (unpack b).exp - (unpack a).exp → exec (.add a b) s = .next { s with validOut := true, result := b }) ∧
      ((unpack b).exp - (unpack a).exp ≤ 24 →
        exec (.add a b) s =
          .next
            { s with
              validOut := true
              result :=
                truncated (decide (alignedSum (unpack b) (unpack a) < 0)) (unpack b).exp
                  (alignedSum (unpack b) (unpack a)).natAbs }))

/-- R74 (b): ADD is commutative on all words. -/
def Obligations.AddIsCommutative : Prop :=
  ∀ (a b : Word) (s : State), ∃ w,
    exec (.add a b) s = .next { s with validOut := true, result := w } ∧
    exec (.add b a) s = .next { s with validOut := true, result := w }

/-- R75: a zero sum is +0 in every case, and +0 is an identity for every non-NaN word but -0. -/
def Obligations.ZeroSumsArePositive : Prop :=
  (∀ (x b : Word) (s : State), isFinite x = true →
    ∃ y, exec (.neg x b) s = .next { s with validOut := true, result := y } ∧
      exec (.add x y) s = .next { s with validOut := true, result := 0x00000000 }) ∧
  (∀ (x y : Word) (s : State), isZero x = true → isZero y = true →
    exec (.add x y) s = .next { s with validOut := true, result := 0x00000000 }) ∧
  (∀ (x : Word) (s : State), isNaN x = false → x ≠ 0x80000000 →
    exec (.add x 0x00000000) s = .next { s with validOut := true, result := x }) ∧
  (∀ s : State, ∃ w, exec (.add 0x80000000 0x00000000) s = .next { s with validOut := true, result := w } ∧
    exec (.eq w 0x80000000) s = .next { s with validOut := true, result := 0x00000000 })

/-- R74 (c) and R72 step 3: from an exponent gap of 24 on, the sum is the big operand's word, in either order. -/
def Obligations.AddAbsorbsTheSmallOperand : Prop :=
  ∀ (a b : Word) (s : State), isFinite a = true → isFinite b = true → (unpack b).exp + 24 ≤ (unpack a).exp →
    exec (.add a b) s = .next { s with validOut := true, result := a } ∧
    exec (.add b a) s = .next { s with validOut := true, result := a }

/-- R74 (e): a sum is a NaN exactly when an operand is, or the operands are infinities of opposite sign. -/
def Obligations.AddIsNaNOnlyWhereTheRuleSays : Prop :=
  ∀ (a b : Word) (s : State), ∃ w, exec (.add a b) s = .next { s with validOut := true, result := w } ∧
    (isNaN w = true ↔ isNaN a = true ∨ isNaN b = true ∨ (isInf a = true ∧ isInf b = true ∧ sign a ≠ sign b))

/-- R77: SUB is ADD of the negated operand, with the corner cases the rule lists. -/
def Obligations.SubIsAddOfTheNegated : Prop :=
  (∀ (a b c : Word) (s : State),
    decode (0x01#8 ++ a ++ b) = .ok (.sub a b) ∧
    ∃ n w, exec (.neg b c) s = .next { s with validOut := true, result := n } ∧
      exec (.add a n) s = .next { s with validOut := true, result := w } ∧
      exec (.sub a b) s = .next { s with validOut := true, result := w }) ∧
  (∀ (a b : Word) (s : State), isNaN b = true →
    exec (.sub a b) s = .next { s with validOut := true, result := Config.nanSentinel }) ∧
  (∀ s : State,
    exec (.sub posInf posInf) s = .next { s with validOut := true, result := Config.nanSentinel } ∧
    exec (.sub posInf negInf) s = .next { s with validOut := true, result := posInf }) ∧
  (∀ (x : Word) (s : State), isFinite x = true →
    exec (.sub x posInf) s = .next { s with validOut := true, result := negInf } ∧
    exec (.sub x x) s = .next { s with validOut := true, result := 0x00000000 }) ∧
  (∀ (x : Word) (s : State), isFinite x = true → isZero x = false →
    exec (.sub 0x00000000 x) s = .next { s with validOut := true, result := x ^^^ 0x80000000 }) ∧
  (∀ s : State, exec (.sub 0x80000000 0x00000000) s = .next { s with validOut := true, result := 0x00000000 }) ∧
  (∃ a b, ∀ s : State, exec (.sub a b) s ≠ exec (.sub b a) s)

/-- R71: NEG flips bit 31 and keeps bits 30 to 0, for every word, a NaN included; twice NEG is the identity. -/
def Obligations.NegFlipsTheSignBit : Prop :=
  ∀ (a b : Word) (s : State),
    decode (0x04#8 ++ a ++ b) = .ok (.neg a b) ∧
    exec (.neg a b) s =
      .next
        { s with
          validOut := true
          result := BitVec.ofNat 32 ((if 2 ^ 31 ≤ a.toNat then 0 else 2 ^ 31) + a.toNat % 2 ^ 31) } ∧
    ∃ w, exec (.neg a b) s = .next { s with validOut := true, result := w } ∧ (isNaN w = isNaN a) ∧
      exec (.neg w b) s = .next { s with validOut := true, result := a }

/-! ### MUL, DIV -/

/-- R79 and R80: MUL in full, the finite product in closed form. -/
def Obligations.MulComputesItsRule : Prop :=
  ∀ (a b : Word) (s : State),
    decode (0x02#8 ++ a ++ b) = .ok (.mul a b) ∧
    (isNaN a = true ∨ isNaN b = true →
      exec (.mul a b) s = .next { s with validOut := true, result := Config.nanSentinel }) ∧
    ((isInf a = true ∧ isZero b = true) ∨ (isZero a = true ∧ isInf b = true) →
      exec (.mul a b) s = .next { s with validOut := true, result := Config.nanSentinel }) ∧
    ((isInf a = true ∧ isNaN b = false ∧ isZero b = false) ∨ (isInf b = true ∧ isNaN a = false ∧ isZero a = false) →
      exec (.mul a b) s =
        .next { s with validOut := true, result := if sign a = sign b then posInf else negInf }) ∧
    (isFinite a = true → isFinite b = true →
      exec (.mul a b) s =
        .next
          { s with
            validOut := true
            result :=
              truncated (sign a != sign b) ((unpack a).exp + (unpack b).exp)
                ((unpack a).sig * (unpack b).sig / 2 ^ 23) })

/-- R81 (c): MUL is commutative on all words. -/
def Obligations.MulIsCommutative : Prop :=
  ∀ (a b : Word) (s : State), ∃ w,
    exec (.mul a b) s = .next { s with validOut := true, result := w } ∧
    exec (.mul b a) s = .next { s with validOut := true, result := w }

/-- R81 (b): on normal operands, when the result is in the normal range, the kept significand is the top 24 bits of the
product. -/
def Obligations.MulOfNormalsKeepsTheTopBits : Prop :=
  ∀ (a b : Word) (s : State) (E P : Nat), isNorm a = true → isNorm b = true →
    (field a).toNat + (field b).toNat = E + 127 →
    P = (2 ^ 23 + (frac a).toNat) * (2 ^ 23 + (frac b).toNat) →
    (P < 2 ^ 47 → 1 ≤ E → E ≤ 254 →
      exec (.mul a b) s =
        .next
          { s with
            validOut := true
            result := pack (sign a != sign b) (BitVec.ofNat 8 E) (BitVec.ofNat 23 (P / 2 ^ 23 - 2 ^ 23)) }) ∧
    (2 ^ 47 ≤ P → E ≤ 253 →
      exec (.mul a b) s =
        .next
          { s with
            validOut := true
            result := pack (sign a != sign b) (BitVec.ofNat 8 (E + 1)) (BitVec.ofNat 23 (P / 2 ^ 24 - 2 ^ 23)) })

/-- R82 and R83: DIV in full, in the order of its tests; the exponent is the divisor's minus the dividend's, which the
spec follows its source in and lists as unprobed (UNVERIFIED, log 10; U9). -/
def Obligations.DivComputesItsRule : Prop :=
  ∀ (a b : Word) (s : State),
    decode (0x03#8 ++ a ++ b) = .ok (.div a b) ∧
    (isNaN a = true ∨ isNaN b = true →
      exec (.div a b) s = .next { s with validOut := true, result := Config.nanSentinel }) ∧
    (isZero b = true → exec (.div a b) s = .next { s with validOut := true, result := Config.nanSentinel }) ∧
    (isInf a = true → isInf b = true →
      exec (.div a b) s = .next { s with validOut := true, result := Config.nanSentinel }) ∧
    (isInf a = true → isFinite b = true → isZero b = false →
      exec (.div a b) s =
        .next { s with validOut := true, result := if sign a = sign b then posInf else negInf }) ∧
    (isFinite a = true → isInf b = true →
      exec (.div a b) s =
        .next { s with validOut := true, result := if sign a = sign b then 0x00000000 else 0x80000000 }) ∧
    (isFinite a = true → isFinite b = true → isZero b = false →
      exec (.div a b) s =
        .next
          { s with
            validOut := true
            result :=
              truncated (sign a != sign b) ((unpack b).exp - (unpack a).exp)
                ((unpack a).sig * 2 ^ 23 / (unpack b).sig) })

/-- R84 and R85 (a): on normal operands of equal exponent the result is the truncated quotient of the significands, one
place lower and with an even fraction when it is below one. -/
def Obligations.DivOfEqualExponentsIsTheQuotient : Prop :=
  ∀ (a b : Word) (s : State) (Ma Mb : Nat), isNorm a = true → isNorm b = true → field a = field b →
    Ma = 2 ^ 23 + (frac a).toNat → Mb = 2 ^ 23 + (frac b).toNat →
    (Mb ≤ Ma →
      exec (.div a b) s =
        .next
          { s with
            validOut := true
            result := pack (sign a != sign b) 127 (BitVec.ofNat 23 (Ma * 2 ^ 23 / Mb - 2 ^ 23)) }) ∧
    (Ma < Mb →
      exec (.div a b) s =
        .next
          { s with
            validOut := true
            result := pack (sign a != sign b) 126 (BitVec.ofNat 23 (2 * (Ma * 2 ^ 23 / Mb) - 2 ^ 23)) })

/-! ### EQ and classification -/

/-- R86: EQ compares all 32 bits and is false on any NaN; it is symmetric. -/
def Obligations.EqComparesRawBits : Prop :=
  ∀ (a b : Word) (s : State),
    decode (0x10#8 ++ a ++ b) = .ok (.eq a b) ∧
    (a.toNat % 2 ^ 31 > 0x7F800000 ∨ b.toNat % 2 ^ 31 > 0x7F800000 →
      exec (.eq a b) s = .next { s with validOut := true, result := 0x00000000 }) ∧
    (a.toNat % 2 ^ 31 ≤ 0x7F800000 → a = b →
      exec (.eq a b) s = .next { s with validOut := true, result := 0x00000001 }) ∧
    (a ≠ b → exec (.eq a b) s = .next { s with validOut := true, result := 0x00000000 }) ∧
    exec (.eq a b) s = exec (.eq b a) s

/-- R94 to R99: the six predicates, by the value of bits 30 to 0 and of bit 31. -/
def Obligations.PredicatesFollowTheWordsMagnitude : Prop :=
  ∀ (a b : Word) (s : State),
    decode (0x11#8 ++ a ++ b) = .ok (.isZero a b) ∧ decode (0x12#8 ++ a ++ b) = .ok (.isNaN a b) ∧
    decode (0x13#8 ++ a ++ b) = .ok (.isInf a b) ∧ decode (0x14#8 ++ a ++ b) = .ok (.isNeg a b) ∧
    decode (0x15#8 ++ a ++ b) = .ok (.isSub a b) ∧ decode (0x16#8 ++ a ++ b) = .ok (.isNorm a b) ∧
    exec (.isZero a b) s = .next { s with validOut := true, result := if a.toNat % 2 ^ 31 = 0 then 1 else 0 } ∧
    exec (.isNaN a b) s =
      .next { s with validOut := true, result := if 0x7F800000 < a.toNat % 2 ^ 31 then 1 else 0 } ∧
    exec (.isInf a b) s =
      .next { s with validOut := true, result := if a.toNat % 2 ^ 31 = 0x7F800000 then 1 else 0 } ∧
    exec (.isNeg a b) s = .next { s with validOut := true, result := if 2 ^ 31 ≤ a.toNat then 1 else 0 } ∧
    exec (.isSub a b) s =
      .next { s with validOut := true, result := if a.toNat % 2 ^ 31 < 0x00800000 then 1 else 0 } ∧
    exec (.isNorm a b) s =
      .next
        { s with
          validOut := true
          result := if 0x00800000 ≤ a.toNat % 2 ^ 31 ∧ a.toNat % 2 ^ 31 < 0x7F800000 then 1 else 0 }

/-- R101: every word is in exactly one of the four classes ISSUB, ISNORM, ISINF, ISNAN; a zero is in ISSUB; flipping the
sign flips ISNEG and none of the others. -/
def Obligations.EveryWordHasExactlyOneClass : Prop :=
  ∀ (a b : Word) (s : State), ∃ z n f g u m : Word,
    exec (.isZero a b) s = .next { s with validOut := true, result := z } ∧
    exec (.isNaN a b) s = .next { s with validOut := true, result := n } ∧
    exec (.isInf a b) s = .next { s with validOut := true, result := f } ∧
    exec (.isNeg a b) s = .next { s with validOut := true, result := g } ∧
    exec (.isSub a b) s = .next { s with validOut := true, result := u } ∧
    exec (.isNorm a b) s = .next { s with validOut := true, result := m } ∧
    u.toNat + m.toNat + f.toNat + n.toNat = 1 ∧ (z = 1 → u = 1) ∧
    exec (.isZero (a ^^^ 0x80000000) b) s = .next { s with validOut := true, result := z } ∧
    exec (.isNaN (a ^^^ 0x80000000) b) s = .next { s with validOut := true, result := n } ∧
    exec (.isInf (a ^^^ 0x80000000) b) s = .next { s with validOut := true, result := f } ∧
    exec (.isNeg (a ^^^ 0x80000000) b) s = .next { s with validOut := true, result := 1 - g } ∧
    exec (.isSub (a ^^^ 0x80000000) b) s = .next { s with validOut := true, result := u } ∧
    exec (.isNorm (a ^^^ 0x80000000) b) s = .next { s with validOut := true, result := m }

/-- R100: EXPO returns the unbiased exponent as a two's-complement integer, -126 for field 0, and the minimum integer for
NaN and infinity; on a finite word it is the exponent that unpacking gives. -/
def Obligations.ExpoReturnsTheExponent : Prop :=
  ∀ (a b : Word) (s : State),
    decode (0x17#8 ++ a ++ b) = .ok (.expo a b) ∧
    (a.toNat / 2 ^ 23 % 256 = 255 → exec (.expo a b) s = .next { s with validOut := true, result := 0x80000000 }) ∧
    (a.toNat / 2 ^ 23 % 256 ≠ 255 →
      exec (.expo a b) s =
        .next
          { s with
            validOut := true
            result := BitVec.ofInt 32 ((max 1 (a.toNat / 2 ^ 23 % 256) : Nat) - 127) } ∧
      (BitVec.ofInt 32 ((max 1 (a.toNat / 2 ^ 23 % 256) : Nat) - 127)).toInt = (unpack a).exp)

/-! ### Construction and conversion -/

/-- R53 and R54: CVTU in closed form, with what its result denotes. -/
def Obligations.CvtuHasAClosedForm : Prop :=
  ∀ (a b : Word) (s : State),
    decode (0x20#8 ++ a ++ b) = .ok (.cvtu a b) ∧
    (a = 0 → exec (.cvtu a b) s = .next { s with validOut := true, result := 0x00000000 }) ∧
    (0x01FFFFFE < a.toNat → exec (.cvtu a b) s = .next { s with validOut := true, result := Config.nanSentinel }) ∧
    (0 < a.toNat → a.toNat ≤ 0x01FFFFFE →
      ∃ m : BitVec 23,
        exec (.cvtu a b) s =
          .next { s with validOut := true, result := pack false (BitVec.ofNat 8 (127 + a.toNat.log2)) m } ∧
        (a.toNat < 2 ^ 24 →
          m = BitVec.ofNat 23 (a.toNat <<< (23 - a.toNat.log2)) ∧
          (2 ^ 23 + m.toNat) * 2 ^ a.toNat.log2 = a.toNat * 2 ^ 23) ∧
        (2 ^ 24 ≤ a.toNat →
          m = BitVec.ofNat 23 (a.toNat >>> 1) ∧ (2 ^ 23 + m.toNat) * 2 = a.toNat - a.toNat % 2))

/-- R55: CVTS is CVTU on the magnitude with the sign bit copied, except into a zero or `NAN_SENTINEL`. -/
def Obligations.CvtsCopiesTheSign : Prop :=
  ∀ (a b : Word) (s : State),
    decode (0x21#8 ++ a ++ b) = .ok (.cvts a b) ∧
    (a.toInt = 0 → exec (.cvts a b) s = .next { s with validOut := true, result := 0x00000000 }) ∧
    (0x01FFFFFE < a.toInt.natAbs →
      exec (.cvts a b) s = .next { s with validOut := true, result := Config.nanSentinel }) ∧
    (0 < a.toInt.natAbs → a.toInt.natAbs ≤ 0x01FFFFFE →
      ∃ r, exec (.cvtu (BitVec.ofNat 32 a.toInt.natAbs) b) s = .next { s with validOut := true, result := r } ∧
        exec (.cvts a b) s =
          .next { s with validOut := true, result := pack (decide (a.toInt < 0)) (field r) (frac r) })

/-- R93: converting an integer to a value and back gives the integer for every magnitude up to 2^24 and every even
magnitude up to 0x01FFFFFE, and for the odd ones above 2^24 the integer with its magnitude reduced by one. -/
def Obligations.IntegersSurviveTheRoundTrip : Prop :=
  ∀ (a b c : Word) (s : State), a.toInt.natAbs ≤ 0x01FFFFFE →
    ∃ v r, exec (.cvts a b) s = .next { s with validOut := true, result := v } ∧
      exec (.cvti v c) s = .next { s with validOut := true, result := r } ∧
      (a.toInt.natAbs ≤ 2 ^ 24 ∨ a.toInt.natAbs % 2 = 0 → r = a) ∧
      (2 ^ 24 < a.toInt.natAbs → a.toInt.natAbs % 2 = 1 →
        r.toInt.natAbs = a.toInt.natAbs - 1 ∧ (r.toInt < 0 ↔ a.toInt < 0))

/-- R88 to R90: CVTI truncates the value toward zero, and gives the sentinel for NaN, infinity and every magnitude of 2^31
or more. -/
def Obligations.CvtiTruncatesTowardZero : Prop :=
  ∀ (a b : Word) (s : State),
    decode (0x22#8 ++ a ++ b) = .ok (.cvti a b) ∧
    (158 ≤ a.toNat / 2 ^ 23 % 256 → exec (.cvti a b) s = .next { s with validOut := true, result := 0x80000000 }) ∧
    (a.toNat / 2 ^ 23 % 256 < 127 → exec (.cvti a b) s = .next { s with validOut := true, result := 0x00000000 }) ∧
    (127 ≤ a.toNat / 2 ^ 23 % 256 → a.toNat / 2 ^ 23 % 256 < 158 →
      ∃ r : Word, exec (.cvti a b) s = .next { s with validOut := true, result := r } ∧
        r.toInt =
          signedInt (decide (2 ^ 31 ≤ a.toNat))
            ((2 ^ 23 + a.toNat % 2 ^ 23) * 2 ^ (a.toNat / 2 ^ 23 % 256 - 127) / 2 ^ 23))

/-- R50: LIT returns every word unchanged. -/
def Obligations.LitReturnsItsOperand : Prop :=
  ∀ (a b : Word) (s : State),
    decode (0x23#8 ++ a ++ b) = .ok (.lit a b) ∧
    exec (.lit a b) s = .next { s with validOut := true, result := a }
end

