-- ==== Sys2Proof/Laws/Decode.lean ====
section
/-! SUPPORT. The three fields of a request word over natural numbers (30_encoding.md R34). -/

namespace Sys2Proof

variable (op : BitVec 8) (a b : Word) (r : Request)

theorem toNat_requestOp : (requestOp r).toNat = r.toNat / 2 ^ 64 := by
  have h := r.isLt
  rw [requestOp, BitVec.extractLsb'_toNat, Nat.shiftRight_eq_div_pow]
  omega

theorem toNat_requestA : (requestA r).toNat = r.toNat / 2 ^ 32 % 2 ^ 32 := by
  rw [requestA, BitVec.extractLsb'_toNat, Nat.shiftRight_eq_div_pow]

theorem toNat_requestB : (requestB r).toNat = r.toNat % 2 ^ 32 := by
  rw [requestB, BitVec.extractLsb'_toNat, Nat.shiftRight_zero]

theorem toNat_requestOf : (requestOf op a b).toNat = op.toNat * 2 ^ 64 + a.toNat * 2 ^ 32 + b.toNat := by
  have ha := a.isLt
  have hb := b.isLt
  have e1 : (op ++ a).toNat = op.toNat * 2 ^ 32 + a.toNat := by
    rw [BitVec.toNat_append, ← Nat.shiftLeft_add_eq_or_of_lt ha, Nat.shiftLeft_eq]
  have e2 : (op ++ a ++ b).toNat = (op ++ a).toNat * 2 ^ 32 + b.toNat := by
    rw [BitVec.toNat_append, ← Nat.shiftLeft_add_eq_or_of_lt hb, Nat.shiftLeft_eq]
  show (op ++ a ++ b).toNat = _
  rw [e2, e1]
  ring

@[simp] theorem requestOp_requestOf : requestOp (requestOf op a b) = op := by
  have h := a.isLt
  have hb := b.isLt
  apply BitVec.eq_of_toNat_eq
  rw [toNat_requestOp, toNat_requestOf]
  omega

@[simp] theorem requestA_requestOf : requestA (requestOf op a b) = a := by
  have h := a.isLt
  have hb := b.isLt
  apply BitVec.eq_of_toNat_eq
  rw [toNat_requestA, toNat_requestOf]
  omega

@[simp] theorem requestB_requestOf : requestB (requestOf op a b) = b := by
  have hb := b.isLt
  apply BitVec.eq_of_toNat_eq
  rw [toNat_requestB, toNat_requestOf]
  omega

/-- A request word is made of its three fields. -/
theorem requestOf_fields : requestOf (requestOp r) (requestA r) (requestB r) = r := by
  apply BitVec.eq_of_toNat_eq
  rw [toNat_requestOf, toNat_requestOp, toNat_requestA, toNat_requestB]
  omega

end Sys2Proof
end

