-- ==== Sys2Proof/Laws/Layout.lean ====
section
/-! SUPPORT. The layout of a value word over natural numbers: the three parts of a word, the word of three parts, and
that they are inverse to each other (10_state.md R10). -/

namespace Sys2Proof.Machine

variable (w : Word) (s : Bool) (f : BitVec 8) (m : BitVec 23)

theorem sign_eq : sign w = decide (2 ^ 31 ≤ w.toNat) := by
  have h := w.isLt
  rw [sign, BitVec.getLsbD, Nat.testBit_eq_decide_div_mod_eq]
  congr 1
  apply propext
  omega

theorem toNat_field : (field w).toNat = w.toNat / 2 ^ 23 % 256 := by
  simp [field, BitVec.extractLsb'_toNat, Nat.shiftRight_eq_div_pow]

theorem toNat_frac : (frac w).toNat = w.toNat % 2 ^ 23 := by
  simp [frac, BitVec.extractLsb'_toNat]

theorem toNat_pack : (pack s f m).toNat = s.toNat * 2 ^ 31 + f.toNat * 2 ^ 23 + m.toNat := by
  have hf := f.isLt
  have hm := m.isLt
  have e1 : (BitVec.ofBool s ++ f).toNat = s.toNat * 2 ^ 8 + f.toNat := by
    rw [BitVec.toNat_append, ← Nat.shiftLeft_add_eq_or_of_lt hf, Nat.shiftLeft_eq]
    simp
  have e2 : (BitVec.ofBool s ++ f ++ m).toNat = (BitVec.ofBool s ++ f).toNat * 2 ^ 23 + m.toNat := by
    rw [BitVec.toNat_append, ← Nat.shiftLeft_add_eq_or_of_lt hm, Nat.shiftLeft_eq]
  show (BitVec.ofBool s ++ f ++ m).toNat = _
  rw [e2, e1]
  ring

/-- A word is the sum of its three parts. -/
theorem toNat_eq_parts : w.toNat = (sign w).toNat * 2 ^ 31 + (field w).toNat * 2 ^ 23 + (frac w).toNat := by
  have h := w.isLt
  rw [sign_eq, toNat_field, toNat_frac]
  by_cases h31 : 2 ^ 31 ≤ w.toNat
  · simp only [h31, decide_true, Bool.toNat_true]
    omega
  · simp only [h31, decide_false, Bool.toNat_false]
    omega

@[simp] theorem sign_pack : sign (pack s f m) = s := by
  have hf := f.isLt
  have hm := m.isLt
  rw [sign_eq, toNat_pack]
  cases s
  · simp only [Bool.toNat_false, decide_eq_false_iff_not]
    omega
  · simp only [Bool.toNat_true, decide_eq_true_eq]
    omega

@[simp] theorem field_pack : field (pack s f m) = f := by
  have hf := f.isLt
  have hm := m.isLt
  apply BitVec.eq_of_toNat_eq
  rw [toNat_field, toNat_pack]
  have hs := Bool.toNat_lt s
  omega

@[simp] theorem frac_pack : frac (pack s f m) = m := by
  have hm := m.isLt
  apply BitVec.eq_of_toNat_eq
  rw [toNat_frac, toNat_pack]
  omega

@[simp] theorem pack_parts : pack (sign w) (field w) (frac w) = w := by
  apply BitVec.eq_of_toNat_eq
  rw [toNat_pack, ← toNat_eq_parts]

/-- Two words with the same three parts are the same word. -/
theorem word_ext {v : Word} (hs : sign v = sign w) (hf : field v = field w) (hm : frac v = frac w) : v = w := by
  rw [← pack_parts v, ← pack_parts w, hs, hf, hm]

/-- Two's-complement negation over natural numbers (R7). -/
theorem toNat_neg32 : (neg32 w).toNat = (2 ^ 32 - w.toNat) % 2 ^ 32 := by
  have h := w.isLt
  have h1 : (1 : Word).toNat = 1 := rfl
  rw [neg32, BitVec.toNat_add, BitVec.toNat_not, h1]
  omega

end Sys2Proof.Machine
end

