-- ==== Sys2Proof/Laws/Normalise.lean ====
section
/-! SUPPORT. What each stage of the normaliser does, said once (42_arith_common.md R66 to R68). -/

namespace Sys2Proof.Machine

/-- The carry stage shifts right some number of places, no more than it is allowed, and adds that number to the
exponent; it leaves a significand below 2^24 when it is allowed enough, and stops no lower than bit 23. -/
theorem carryStage_spec (n : Nat) (e : Int) (S : Nat) (h : S < 2 ^ (24 + n)) :
    ∃ k, k ≤ n ∧ carryStage n e S = (e + k, S >>> k) ∧ S >>> k < 2 ^ 24 ∧ (k = 0 ∨ 2 ^ 23 ≤ S >>> k) := by
  induction n generalizing e S with
  | zero => exact ⟨0, le_refl _, by simp [carryStage], by simpa using h, .inl rfl⟩
  | succ n ih =>
    by_cases hS : 2 ^ 24 ≤ S
    · have hhalf : S >>> 1 = S / 2 := by simp [Nat.shiftRight_eq_div_pow]
      have hlt : S >>> 1 < 2 ^ (24 + n) := by
        rw [hhalf]
        have : 2 ^ (24 + (n + 1)) = 2 * 2 ^ (24 + n) := by ring
        omega
      obtain ⟨k, hk, hc, hb, hlow⟩ := ih (e + 1) (S >>> 1) hlt
      have hsh : S >>> 1 >>> k = S >>> (k + 1) := by rw [← Nat.shiftRight_add, Nat.add_comm]
      rw [hsh] at hc hb hlow
      refine ⟨k + 1, by omega, ?_, hb, .inr ?_⟩
      · rw [carryStage, if_pos hS, hc]
        push_cast
        ring_nf
      · rcases hlow with rfl | hlow
        · rw [Nat.zero_add, hhalf]
          omega
        · exact hlow
    · exact ⟨0, by omega, by rw [carryStage, if_neg hS]; simp, by simpa using hS, .inl rfl⟩

/-- The cancellation stage shifts left some number of places, no more than it is allowed, subtracts that number from the
exponent, and never goes below exponent -126; with a significand below 2^24 it loses no bit. -/
theorem cancelStage_spec (n : Nat) (e : Int) (S : Nat) (hS : S < 2 ^ 24) (he : -126 ≤ e) :
    ∃ k, k ≤ n ∧ cancelStage n e S = (e - k, S <<< k) ∧ S <<< k < 2 ^ 24 ∧ -126 ≤ e - k ∧
      (k < n → (S <<< k).testBit 23 = true ∨ e - k = -126) := by
  induction n generalizing e S with
  | zero => exact ⟨0, le_refl _, by simp [cancelStage], by simpa using hS, by simpa using he, by omega⟩
  | succ n ih =>
    by_cases hc : S.testBit 23 = false ∧ -126 < e
    · have hlt : S < 2 ^ 23 := by
        have hbit := hc.1
        rw [Nat.testBit_eq_decide_div_mod_eq, decide_eq_false_iff_not] at hbit
        omega
      have hdbl : S <<< 1 = 2 * S := by rw [Nat.shiftLeft_eq]; ring
      obtain ⟨k, hk, hr, hb, hlow, hstop⟩ := ih (e - 1) (S <<< 1) (by omega) (by omega)
      have hsh : S <<< 1 <<< k = S <<< (k + 1) := by rw [← Nat.shiftLeft_add, Nat.add_comm]
      rw [hsh] at hr hb hstop
      have hexp : e - 1 - (k : Int) = e - ((k + 1 : Nat) : Int) := by push_cast; ring
      rw [hexp] at hr hlow hstop
      refine ⟨k + 1, by omega, ?_, hb, hlow, fun hkn => hstop (by omega)⟩
      rw [cancelStage, if_pos hc, hr]
    · refine ⟨0, by omega, by rw [cancelStage, if_neg hc]; simp, by simpa using hS, by simpa using he, fun _ => ?_⟩
      rcases Decidable.not_and_iff_or_not.mp hc with hb | hb
      · exact .inl (by simpa using hb)
      · exact .inr (by simp; omega)

/-- The underflow stage leaves an exponent of at least -126, and a significand no larger than before. -/
theorem underflowStage_spec (e : Int) (S : Nat) :
    -126 ≤ (underflowStage e S).1 ∧ (underflowStage e S).2 ≤ S ∧
      (-126 ≤ e → underflowStage e S = (e, S)) := by
  unfold underflowStage
  by_cases h : e < -126
  · simp only [h, if_true]
    refine ⟨le_refl _, ?_, fun hn => absurd h (by omega)⟩
    split
    · exact Nat.zero_le _
    · exact Nat.shiftRight_le _ _
  · rw [if_neg h]
    exact ⟨by omega, le_refl _, fun _ => rfl⟩

end Sys2Proof.Machine
end

