-- ==== Sys2Proof/Laws/State.lean ====
section
/-! SUPPORT. One lemma per field per state operation, so that no later proof unfolds a record update. -/

namespace Sys2Proof.Machine

variable (s : State) (w : Word) (i : Instr) (l : Nat)

@[simp] theorem respond_inbox : (s.respond w).inbox = s.inbox := rfl
@[simp] theorem respond_inFlight : (s.respond w).inFlight = s.inFlight := rfl
@[simp] theorem respond_validOut : (s.respond w).validOut = true := rfl
@[simp] theorem respond_result : (s.respond w).result = w := rfl
@[simp] theorem respond_draws : (s.respond w).draws = s.draws := rfl

@[simp] theorem silent_inbox : s.silent.inbox = s.inbox := rfl
@[simp] theorem silent_inFlight : s.silent.inFlight = s.inFlight := rfl
@[simp] theorem silent_validOut : s.silent.validOut = false := rfl
@[simp] theorem silent_result : s.silent.result = Config.unspecifiedResult s.draws := rfl
@[simp] theorem silent_draws : s.silent.draws = s.draws + 1 := rfl

@[simp] theorem accept_inbox : (s.accept i l).inbox = s.inbox := rfl
@[simp] theorem accept_inFlight :
    (s.accept i l).inFlight = s.inFlight ++ [{ request := i, wait := l }] := rfl
@[simp] theorem accept_validOut : (s.accept i l).validOut = s.validOut := rfl
@[simp] theorem accept_result : (s.accept i l).result = s.result := rfl
@[simp] theorem accept_draws : (s.accept i l).draws = s.draws := rfl

@[simp] theorem tick_inbox : s.tick.inbox = s.inbox := rfl
@[simp] theorem tick_inFlight : s.tick.inFlight = s.inFlight.map InFlight.tick := rfl
@[simp] theorem tick_validOut : s.tick.validOut = s.validOut := rfl
@[simp] theorem tick_result : s.tick.result = s.result := rfl
@[simp] theorem tick_draws : s.tick.draws = s.draws := rfl

@[simp] theorem tick_request (e : InFlight) : e.tick.request = e.request := rfl
@[simp] theorem tick_wait (e : InFlight) : e.tick.wait = e.wait - 1 := rfl

@[simp] theorem applyReset_inbox : s.applyReset.inbox = s.inbox := rfl
@[simp] theorem applyReset_inFlight : s.applyReset.inFlight = [] := rfl
@[simp] theorem applyReset_validOut : s.applyReset.validOut = false := rfl
@[simp] theorem applyReset_result : s.applyReset.result = Config.unspecifiedResult s.draws := rfl
@[simp] theorem applyReset_draws : s.applyReset.draws = s.draws + 1 := rfl

end Sys2Proof.Machine
end

