-- ==== Sys2Proof/Laws/Ops.lean ====
section
/-! SUPPORT. What each shared operation of the step can do, said once: taking the port's event, finding the request that
is due, and the meaning of each instruction over `State.respond`. -/

namespace Sys2Proof.Machine

variable {s t : State}

@[simp] theorem takeEvent_nil (h : s.inbox = []) : s.takeEvent = (.idle, s) := by
  simp [State.takeEvent, h]

@[simp] theorem takeEvent_cons {e : PortEvent} {es : List PortEvent} (h : s.inbox = e :: es) :
    s.takeEvent = (e, { s with inbox := es }) := by
  simp [State.takeEvent, h]

/-- Taking the event removes at most the first of the inbox and touches nothing else. -/
theorem takeEvent_cases {e : PortEvent} (h : s.takeEvent = (e, t)) :
    (s.inbox = [] ∧ e = .idle ∧ t = s) ∨ ∃ es, s.inbox = e :: es ∧ t = { s with inbox := es } := by
  cases hi : s.inbox with
  | nil =>
    rw [takeEvent_nil hi] at h
    exact .inl ⟨rfl, (Prod.mk.inj h).1.symm, (Prod.mk.inj h).2.symm⟩
  | cons d es =>
    rw [takeEvent_cons hi] at h
    obtain ⟨rfl, rfl⟩ := Prod.mk.inj h
    exact .inr ⟨es, rfl, rfl⟩

/-- The due request is the oldest, with nothing left to wait, and what remains is the rest of the queue. -/
theorem due_eq_some {i : Instr} :
    s.due = some (i, t) ↔
      ∃ rest, s.inFlight = { request := i, wait := 0 } :: rest ∧ t = { s with inFlight := rest } := by
  unfold State.due
  split
  · next j rest h =>
    rw [h]
    constructor
    · intro he
      cases he
      exact ⟨rest, rfl, rfl⟩
    · rintro ⟨rest', he, rfl⟩
      cases he
      rfl
  · next hne =>
    constructor
    · intro he
      cases he
    · rintro ⟨rest, he, -⟩
      exact absurd he (hne _ _)

/-- Nothing is due exactly when the queue does not begin with a request that has nothing left to wait. -/
theorem due_eq_none :
    s.due = none ↔ ∀ i rest, s.inFlight ≠ { request := i, wait := 0 } :: rest := by
  constructor
  · intro h i rest he
    have := due_eq_some.mpr ⟨rest, he, rfl⟩
    rw [h] at this
    cases this
  · intro h
    cases hd : s.due with
    | none => rfl
    | some p =>
      obtain ⟨rest, he, -⟩ := due_eq_some.mp hd
      exact absurd he (h _ _)

section Meanings
variable (a b : Word) (s : State)

@[simp] theorem exec_add : exec (.add a b) s = .next (s.respond (addWord a b)) := rfl
@[simp] theorem exec_sub : exec (.sub a b) s = .next (s.respond (addWord a (negWord b))) := rfl
@[simp] theorem exec_mul : exec (.mul a b) s = .next (s.respond (mulWord a b)) := rfl
@[simp] theorem exec_div : exec (.div a b) s = .next (s.respond (divWord a b)) := rfl
@[simp] theorem exec_neg : exec (.neg a b) s = .next (s.respond (negWord a)) := rfl
@[simp] theorem exec_eq : exec (.eq a b) s = .next (s.respond (truthWord (equalWords a b))) := rfl
@[simp] theorem exec_isZero : exec (.isZero a b) s = .next (s.respond (truthWord (isZero a))) := rfl
@[simp] theorem exec_isNaN : exec (.isNaN a b) s = .next (s.respond (truthWord (isNaN a))) := rfl
@[simp] theorem exec_isInf : exec (.isInf a b) s = .next (s.respond (truthWord (isInf a))) := rfl
@[simp] theorem exec_isNeg : exec (.isNeg a b) s = .next (s.respond (truthWord (isNeg a))) := rfl
@[simp] theorem exec_isSub : exec (.isSub a b) s = .next (s.respond (truthWord (isSub a))) := rfl
@[simp] theorem exec_isNorm : exec (.isNorm a b) s = .next (s.respond (truthWord (isNorm a))) := rfl
@[simp] theorem exec_expo : exec (.expo a b) s = .next (s.respond (exponentWord a)) := rfl
@[simp] theorem exec_cvtu : exec (.cvtu a b) s = .next (s.respond (fromUnsigned (asUnsigned a))) := rfl
@[simp] theorem exec_cvts : exec (.cvts a b) s = .next (s.respond (fromSigned a)) := rfl
@[simp] theorem exec_cvti : exec (.cvti a b) s = .next (s.respond (toInteger a)) := rfl
@[simp] theorem exec_lit : exec (.lit a b) s = .next (s.respond a) := rfl

end Meanings

/-- What a step can do when it gives a next state: drop everything on a reset, or, after accepting what the port
carries, answer the oldest request or present nothing. -/
theorem step_cases (h : step s = .next t) :
    (∃ es, s.inbox = .reset :: es ∧ t = State.applyReset { s with inbox := es }) ∨
    ∃ u, ((s.inbox = [] ∧ u = s) ∨ (∃ es, s.inbox = .idle :: es ∧ u = { s with inbox := es }) ∨
        ∃ r l i es, s.inbox = .request r l :: es ∧ decode r = .ok i ∧
          u = State.accept { s with inbox := es } i l) ∧
      answerOldest u = .next t := by
  unfold step at h
  split at h
  · next u hu =>
    rcases takeEvent_cases hu with ⟨-, he, -⟩ | ⟨es, hi, rfl⟩
    · cases he
    · cases h
      exact .inl ⟨es, hi, rfl⟩
  · next u hu =>
    rcases takeEvent_cases hu with ⟨hi, -, rfl⟩ | ⟨es, hi, rfl⟩
    · exact .inr ⟨_, .inl ⟨hi, rfl⟩, h⟩
    · exact .inr ⟨_, .inr (.inl ⟨es, hi, rfl⟩), h⟩
  · next r l u hu =>
    rcases takeEvent_cases hu with ⟨-, he, -⟩ | ⟨es, hi, rfl⟩
    · cases he
    · split at h
      · cases h
      · next i hd => exact .inr ⟨_, .inr (.inr ⟨r, l, i, es, hi, hd, rfl⟩), h⟩

/-- The response half of a step: either the oldest request is due and executed, or no response is presented. -/
theorem answerOldest_cases (h : answerOldest s = .next t) :
    (∃ i rest, s.inFlight = { request := i, wait := 0 } :: rest ∧
      exec i (State.tick { s with inFlight := rest }) = .next t) ∨
    ((∀ i rest, s.inFlight ≠ { request := i, wait := 0 } :: rest) ∧ t = s.tick.silent) := by
  unfold answerOldest at h
  split at h
  · next i u hd =>
    obtain ⟨rest, hf, rfl⟩ := due_eq_some.mp hd
    exact .inl ⟨i, rest, hf, h⟩
  · next hd =>
    cases h
    exact .inr ⟨due_eq_none.mp hd, rfl⟩

end Sys2Proof.Machine
end

