-- ==== Sys2Proof/Laws/PerInstr.lean ====
section
/-! SUPPORT. Statements made for every instruction, one lemma per constructor. -/

namespace Sys2Proof.Laws

/-- The opcode of the request word of the instruction is not a reserved one (R41). -/
def OpcodeIsNotReserved.Statement (i : Instr) : Prop := wellFormedRequest (encode i) = true

section
open OpcodeIsNotReserved

theorem OpcodeIsNotReserved.of_op {op : BitVec 8} (a b : Word) (h : reservedOp op = false) :
    wellFormedRequest (requestOf op a b) = true := by
  have hop : (requestOf op a b).extractLsb' 64 8 = op := requestOp_requestOf op a b
  rw [wellFormedRequest, hop, h]
  rfl

variable (a b : Word)

theorem OpcodeIsNotReserved.add : Statement (.add a b) := of_op a b (by decide)
theorem OpcodeIsNotReserved.sub : Statement (.sub a b) := of_op a b (by decide)
theorem OpcodeIsNotReserved.mul : Statement (.mul a b) := of_op a b (by decide)
theorem OpcodeIsNotReserved.div : Statement (.div a b) := of_op a b (by decide)
theorem OpcodeIsNotReserved.neg : Statement (.neg a b) := of_op a b (by decide)
theorem OpcodeIsNotReserved.eq : Statement (.eq a b) := of_op a b (by decide)
theorem OpcodeIsNotReserved.isZero : Statement (.isZero a b) := of_op a b (by decide)
theorem OpcodeIsNotReserved.isNaN : Statement (.isNaN a b) := of_op a b (by decide)
theorem OpcodeIsNotReserved.isInf : Statement (.isInf a b) := of_op a b (by decide)
theorem OpcodeIsNotReserved.isNeg : Statement (.isNeg a b) := of_op a b (by decide)
theorem OpcodeIsNotReserved.isSub : Statement (.isSub a b) := of_op a b (by decide)
theorem OpcodeIsNotReserved.isNorm : Statement (.isNorm a b) := of_op a b (by decide)
theorem OpcodeIsNotReserved.expo : Statement (.expo a b) := of_op a b (by decide)
theorem OpcodeIsNotReserved.cvtu : Statement (.cvtu a b) := of_op a b (by decide)
theorem OpcodeIsNotReserved.cvts : Statement (.cvts a b) := of_op a b (by decide)
theorem OpcodeIsNotReserved.cvti : Statement (.cvti a b) := of_op a b (by decide)
theorem OpcodeIsNotReserved.lit : Statement (.lit a b) := of_op a b (by decide)

end

end Sys2Proof.Laws
end

