-- ==== Sys2Proof/Laws/Run.lean ====
section
/-! SUPPORT. Runs of the block: the first step of a run and the rest. -/

namespace Sys2Proof.Machine

/-- A run of a machine whose first step gives the next state `t` goes on as the run from `t`. -/
theorem machine_run_succ (M : Host.Core) {s t : M.State} (n : Nat) (h : M.step s = .next t) :
    M.run (n + 1) s = M.run n t := by
  rw [Host.Core.run, h]

/-- A run of `n + 1` steps that ends in a next state has a first step that gives one. -/
theorem machine_run_succ_cases (M : Host.Core) {s t : M.State} {n : Nat} (h : M.run (n + 1) s = .next t) :
    ∃ u, M.step s = .next u ∧ M.run n u = .next t := by
  rw [Host.Core.run] at h
  split at h
  · next u hu => exact ⟨u, hu, h⟩
  · cases h
  · cases h

variable {s t : State}

@[simp] theorem core_run_zero : Sys2Proof.core.run 0 s = .next s := rfl

theorem core_run_succ (n : Nat) (h : step s = .next t) : Sys2Proof.core.run (n + 1) s = Sys2Proof.core.run n t :=
  machine_run_succ Sys2Proof.core n h

/-- A run of one step is the step. -/
theorem core_run_one (h : step s = .next t) : Sys2Proof.core.run 1 s = .next t := core_run_succ 0 h

theorem core_run_succ_cases {n : Nat} (h : Sys2Proof.core.run (n + 1) s = .next t) :
    ∃ u, step s = .next u ∧ Sys2Proof.core.run n u = .next t :=
  machine_run_succ_cases Sys2Proof.core h

/-- A run of `m + n` steps whose first `m` give the state `t` goes on as the run of `n` steps from `t`. -/
theorem core_run_add (m n : Nat) (h : Sys2Proof.core.run m s = .next t) :
    Sys2Proof.core.run (m + n) s = Sys2Proof.core.run n t := by
  induction m generalizing s with
  | zero =>
    cases h
    rw [Nat.zero_add]
  | succ m ih =>
    obtain ⟨u, hu, hr⟩ := core_run_succ_cases h
    rw [Nat.succ_add, core_run_succ _ hu, ih hr]

end Sys2Proof.Machine
end

