-- ==== Sys2Proof/Tests/Slice0.lean ====
section
/-! SUPPORT. The model's own tests. Every expected word comes from spec/95_test_vectors.md or a rule's worked example. The
theorems named witness_<Name> show states and operands that meet the hypotheses of Obligations.<Name>, clause by
clause. -/

namespace Sys2Proof.Tests

open Sys2Proof.Machine

/-! ### Well-formed requests: R41, V12 -/

theorem test_reserved_first_range_refused :
    wellFormedRequest 0x053F8000003F800000 = false ∧ wellFormedRequest 0x0F0000000000000000 = false := by decide

theorem test_reserved_second_range_refused :
    wellFormedRequest 0x183F80000000000000 = false ∧ wellFormedRequest 0x1F0000000000000000 = false := by decide

theorem test_reserved_third_range_refused :
    wellFormedRequest 0x240000000000000000 = false ∧ wellFormedRequest 0x2F0000000000000000 = false := by decide

theorem test_reserved_fourth_range_refused :
    wellFormedRequest 0x300000000000000000 = false ∧ wellFormedRequest 0xFF0000000000000000 = false := by decide

theorem test_unreserved_edges_accepted :
    wellFormedRequest 0x040000000000000000 = true ∧ wellFormedRequest 0x100000000000000000 = true ∧
    wellFormedRequest 0x170000000000000000 = true ∧ wellFormedRequest 0x200000000000000000 = true ∧
    wellFormedRequest 0x230000000000000000 = true := by decide

/-! ### Decoding: words written out from R34 and R40 -/

theorem test_decode_add : decodeTableWord 72 0x0042C8000041C80000 = some (.add 0x42C80000 0x41C80000) := by decide
theorem test_decode_sub : decodeTableWord 72 0x013F80000040000000 = some (.sub 0x3F800000 0x40000000) := by decide
theorem test_decode_mul : decodeTableWord 72 0x02BF80000040000000 = some (.mul 0xBF800000 0x40000000) := by decide
theorem test_decode_div : decodeTableWord 72 0x0341000000C0000000 = some (.div 0x41000000 0xC0000000) := by decide
theorem test_decode_neg : decodeTableWord 72 0x043F80000012345678 = some (.neg 0x3F800000 0x12345678) := by decide
theorem test_decode_eq : decodeTableWord 72 0x103F8000003F800001 = some (.eq 0x3F800000 0x3F800001) := by decide
theorem test_decode_isZero : decodeTableWord 72 0x118000000000000000 = some (.isZero 0x80000000 0) := by decide
theorem test_decode_isNaN : decodeTableWord 72 0x127F80000100000000 = some (.isNaN 0x7F800001 0) := by decide
theorem test_decode_isInf : decodeTableWord 72 0x13FF80000000000000 = some (.isInf 0xFF800000 0) := by decide
theorem test_decode_isNeg : decodeTableWord 72 0x14BF80000000000000 = some (.isNeg 0xBF800000 0) := by decide
theorem test_decode_isSub : decodeTableWord 72 0x150000000100000000 = some (.isSub 0x00000001 0) := by decide
theorem test_decode_isNorm : decodeTableWord 72 0x160080000000000000 = some (.isNorm 0x00800000 0) := by decide
theorem test_decode_expo : decodeTableWord 72 0x1742C8000000000000 = some (.expo 0x42C80000 0) := by decide
theorem test_decode_cvtu : decodeTableWord 72 0x2000000064FFFFFFFF = some (.cvtu 100 0xFFFFFFFF) := by decide
theorem test_decode_cvts : decodeTableWord 72 0x21FFFFFF9C00000000 = some (.cvts 0xFFFFFF9C 0) := by decide
theorem test_decode_cvti : decodeTableWord 72 0x22C2C8000000000000 = some (.cvti 0xC2C80000 0) := by decide
theorem test_decode_lit : decodeTableWord 72 0x233F800000DEADBEEF = some (.lit 0x3F800000 0xDEADBEEF) := by decide
theorem test_decode_reserved : decodeTableWord 72 0x053F8000003F800000 = none := by decide
theorem test_decode_reserved_by_name : decode 0x300000000000000000 = .error (.reservedOp 0x30) := by decide
theorem test_encode_div : encode (.div 0x41000000 0xC0000000) = 0x0341000000C0000000 := by decide
theorem test_bits_is_lit : encode (Instr.bits 0x7FC00001) = 0x237FC0000100000000 := by decide

/-! ### One step on one request, from the reset state -/

/-- The request word `r` is answered with `w` in the very next step. -/
def answers (r : Nat) (w : Word) : Bool :=
  match step (State.reset.withFetchWord 72 r) with
  | .next t => t.validOut && t.result == w && t.inFlight == [] && t.inbox == []
  | .fault _ => false
  | .refused _ => false

theorem test_add_125 : answers 0x0042C8000041C80000 0x42FA0000 = true := by decide
theorem test_add_truncates_the_small_operand : answers 0x003F800000B4400000 0x3F7FFFFE = true := by decide
theorem test_sub_minus_one : answers 0x013F80000040000000 0xBF800000 = true := by decide
theorem test_sub_smallest_subnormal : answers 0x0100800000007FFFFF 0x00000001 = true := by decide
theorem test_mul_truncates : answers 0x023FFFFFFF3FFFFFFF 0x407FFFFE = true := by decide
theorem test_mul_subnormal_result : answers 0x021FFFFFFF20000000 0x007FFFFF = true := by decide
theorem test_div_exponent_order : answers 0x034100000040000000 0x3E800000 = true := by decide
theorem test_div_subnormal_divisor : answers 0x033F80000000000003 0x0B2AAAAA = true := by decide
theorem test_neg_zero : answers 0x040000000000000000 0x80000000 = true := by decide
theorem test_neg_nan : answers 0x047FC0000000000000 0xFFC00000 = true := by decide
theorem test_eq_zeros_differ : answers 0x100000000080000000 0x00000000 = true := by decide
theorem test_eq_nan_with_itself : answers 0x107FC000007FC00000 0x00000000 = true := by decide
theorem test_isZero_minus_zero : answers 0x118000000000000000 0x00000001 = true := by decide
theorem test_isZero_subnormal : answers 0x110000000100000000 0x00000000 = true := by decide
theorem test_isNaN_least : answers 0x127F80000100000000 0x00000001 = true := by decide
theorem test_isNaN_infinity : answers 0x127F80000000000000 0x00000000 = true := by decide
theorem test_isInf_minus : answers 0x13FF80000000000000 0x00000001 = true := by decide
theorem test_isInf_largest_finite : answers 0x137F7FFFFF00000000 0x00000000 = true := by decide
theorem test_isNeg_minus_zero : answers 0x148000000000000000 0x00000001 = true := by decide
theorem test_isNeg_plus_nan : answers 0x147FC0000000000000 0x00000000 = true := by decide
theorem test_isSub_zero : answers 0x150000000000000000 0x00000001 = true := by decide
theorem test_isSub_smallest_normal : answers 0x150080000000000000 0x00000000 = true := by decide
theorem test_isNorm_smallest : answers 0x160080000000000000 0x00000001 = true := by decide
theorem test_isNorm_infinity : answers 0x167F80000000000000 0x00000000 = true := by decide
theorem test_expo_zero : answers 0x170000000000000000 0xFFFFFF82 = true := by decide
theorem test_expo_infinity : answers 0x177F80000000000000 0x80000000 = true := by decide
theorem test_cvtu_bit_24 : answers 0x200100000200000000 0x4B800001 = true := by decide
theorem test_cvtu_100 : answers 0x2000000064FFFFFFFF 0x42C80000 = true := by decide
theorem test_cvts_minus_100 : answers 0x21FFFFFF9C00000000 0xC2C80000 = true := by decide
theorem test_cvts_odd_truncated : answers 0x21FEFFFFFF00000000 0xCB800000 = true := by decide
theorem test_cvti_toward_zero : answers 0x22C0490FDB00000000 0xFFFFFFFD = true := by decide
theorem test_cvti_left_shift : answers 0x22CEFFFFFF00000000 0x80000080 = true := by decide
theorem test_lit_ignores_b : answers 0x233F800000DEADBEEF 0x3F800000 = true := by decide

/-- The results the spec leaves open are the instance's sentinel: V8 x / 0, V2 `CVT_MAX + 1`. -/
theorem test_div_by_zero : answerOf (.div 0x3F800000 0x80000000) = some Config.nanSentinel := rfl
theorem test_cvtu_out_of_range : answerOf (.cvtu 0x01FFFFFF 0) = some Config.nanSentinel := rfl

/-! ### The normaliser on its own: V13 -/

theorem test_normpack_carries_23_times : normpack false (-126) 0x400000000000 = 0x0C000000 := by decide
theorem test_normpack_carry_then_underflow : normpack false (-128) 0x1000000 = 0x00400000 := by decide
theorem test_normpack_overflow_after_carry : normpack false 127 0x1FFFFFE = 0x7F800000 := by decide

/-! ### The step -/

/-- The block with the given events to come and requests in flight. -/
def block (es : List PortEvent) (q : List InFlight) : State := { State.reset with inbox := es, inFlight := q }

theorem test_step_refuses_reserved :
    step (State.reset.withFetchWord 72 0xFF0000000000000000) = .refused (.reservedOp 0xFF) := rfl

/-- After one step the block presents the response `w`, keeps `q` in flight, and has `es` to come. -/
def becomes (s : State) (w : Option Word) (q : List InFlight) (es : List PortEvent) : Bool :=
  match step s with
  | .next t => t.response == w && t.inFlight == q && t.inbox == es
  | .fault _ => false
  | .refused _ => false

/-- P6 step 1: with LATENCY 1 the request is accepted and in flight, and no response is presented. -/
theorem test_request_in_flight :
    becomes (block [.request 0x200000000300000000 1, .reset] []) none [⟨.cvtu 3 0, 0⟩] [.reset] = true := by decide

/-- P6 step 2: the reset drops it without a response. -/
theorem test_reset_drops_in_flight : becomes (block [.reset] [⟨.cvtu 3 0, 0⟩]) none [] [] = true := by decide

/-- A due request is answered while a younger one is accepted behind it. -/
theorem test_oldest_answered_first :
    becomes (block [.request 0x230000000700000000 0] [⟨.cvtu 3 0, 0⟩]) (some 0x40400000) [⟨.lit 7 0, 0⟩] [] = true := by
  decide

/-! ### Witnesses: hypotheses of the obligations are met -/

theorem witness_EncodeOfDecodeIsIdentity : decode 0x043F80000012345678 = .ok (.neg 0x3F800000 0x12345678) := by decide

theorem witness_ReservedOpsAreRefused :
    ∀ op ∈ [0x05#8, 0x0F#8, 0x18#8, 0x1F#8, 0x24#8, 0x2F#8, 0x30#8, 0xFF#8],
      (((0x05 ≤ op.toNat ∧ op.toNat ≤ 0x0F) ∨ (0x18 ≤ op.toNat ∧ op.toNat ≤ 0x1F) ∨
        (0x24 ≤ op.toNat ∧ op.toNat ≤ 0x2F) ∨ (0x30 ≤ op.toNat ∧ op.toNat ≤ 0xFF)) ∧
      (block [.request (op ++ 0#32 ++ 0#32) 3] [⟨.lit 5 0, 0⟩]).inbox = [.request (op ++ 0#32 ++ 0#32) 3] ∧
      decode (op ++ 0#32 ++ 0#32) = .error (.reservedOp op)) := by decide

theorem witness_EveryUnreservedRequestIsAnswered :
    reservedOp 0x00 = false ∧ reservedOp 0x04 = false ∧ reservedOp 0x10 = false ∧ reservedOp 0x17 = false ∧
    reservedOp 0x20 = false ∧ reservedOp 0x23 = false := by decide

theorem witness_StepRunsTheDecodedRequest :
    (block [.request 0x230000000500000000 0] []).inFlight = [] ∧
    (block [.request 0x230000000500000000 0] []).inbox = [.request 0x230000000500000000 0] ∧
    decode 0x230000000500000000 = .ok (.lit 5 0) := by decide

theorem witness_StepAnswersTheOldestDueRequest :
    (block [] [⟨.lit 5 0, 0⟩]).inFlight = [⟨.lit 5 0, 0⟩] ∧
    (block [.idle] [⟨.lit 5 0, 0⟩, ⟨.lit 6 0, 2⟩]).inFlight = [⟨.lit 5 0, 0⟩, ⟨.lit 6 0, 2⟩] ∧
    (block [.request 0x230000000500000000 1] [⟨.lit 5 0, 0⟩]).inbox = [.request 0x230000000500000000 1] ∧
    decode 0x230000000500000000 = .ok (.lit 5 0) := by decide

theorem witness_StepPresentsNothingWhenNothingIsDue :
    ((block [] []).inbox = [] ∧ ∀ i rest, (block [] []).inFlight ≠ ⟨i, 0⟩ :: rest) ∧
    ((block [.idle] [⟨.lit 5 0, 1⟩]).inbox = [.idle] ∧
      ∀ i rest, (block [.idle] [⟨.lit 5 0, 1⟩]).inFlight ≠ ⟨i, 0⟩ :: rest) ∧
    (decode 0x230000000500000000 = .ok (.lit 5 0) ∧
      ∀ i rest, (block [.request 0x230000000500000000 1] []).inFlight ++ [⟨.lit 5 0, 1⟩] ≠ ⟨i, 0⟩ :: rest) := by
  refine ⟨⟨rfl, ?_⟩, ⟨rfl, ?_⟩, by decide, ?_⟩ <;> simp [block, State.reset]

theorem witness_ResetDropsTheRequestsInFlight :
    ((block [.reset, .request 0x230000000500000000 0] [⟨.lit 5 0, 3⟩]).inbox =
        .reset :: (List.replicate 0 .idle ++ .request 0x230000000500000000 0 :: []) ∧
      decode 0x230000000500000000 = .ok (.lit 5 0)) ∧
    ((block [.reset, .idle, .request 0x230000000500000000 2, .idle, .request 0x230000000700000000 0, .reset] []).inbox =
        .reset :: (List.replicate 1 .idle ++ .request 0x230000000500000000 2 ::
          [.idle, .request 0x230000000700000000 0, .reset]) ∧
      PortEvent.reset ∉ [PortEvent.idle, .request 0x230000000700000000 0, .reset].take 2 ∧
      ∀ r l, PortEvent.request r l ∈ [PortEvent.idle, .request 0x230000000700000000 0, .reset].take 2 →
        wellFormedRequest r = true) := by
  refine ⟨by decide, rfl, by decide, fun r l h => ?_⟩
  simp only [List.take_succ_cons, List.take_zero, List.mem_cons, reduceCtorEq, PortEvent.request.injEq, false_or,
    List.not_mem_nil, or_false] at h
  rw [h.1]
  decide

theorem witness_ResponsesFollowRequestOrder :
    PortEvent.reset ∉ (block [.request 0x230000000700000000 1] [⟨.lit 5 0, 0⟩]).inbox.take 2 ∧
    trace 2 (block [.request 0x230000000700000000 1] [⟨.lit 5 0, 0⟩]) =
      some ([5, 7], { State.reset with validOut := true, result := 7 }) := ⟨by decide, rfl⟩

theorem witness_EveryRequestInFlightIsAnswered :
    (block [] [⟨.lit 5 0, 2⟩, ⟨.lit 6 0, 0⟩]).inbox = [] ∧
    (∀ e ∈ (block [] [⟨.lit 5 0, 2⟩, ⟨.lit 6 0, 0⟩]).inFlight, e.wait ≤ 2) ∧
    2 + (block [] [⟨.lit 5 0, 2⟩, ⟨.lit 6 0, 0⟩]).inFlight.length ≤ 4 := by decide

theorem witness_LoneRequestIsAnsweredAfterItsLatency :
    (block [.request (encode (.lit 5 0)) 2] []).inFlight = [] ∧
    (block [.request (encode (.lit 5 0)) 2] []).inbox = [.request (encode (.lit 5 0)) 2] ∧ 1 < 2 := by decide

theorem witness_PipelineDepthStaysWithinLatency :
    PipelineWithin 2 (block [.request 0x230000000700000000 2] [⟨.lit 5 0, 0⟩, ⟨.lit 6 0, 1⟩]) ∧
    ∃ t, step (block [.request 0x230000000700000000 2] [⟨.lit 5 0, 0⟩, ⟨.lit 6 0, 1⟩]) = .next t ∧
      t.inFlight.length = 2 := by
  refine ⟨⟨?_, by decide, by decide⟩, _, rfl, rfl⟩
  intro r l h
  simp only [block, List.mem_singleton, PortEvent.request.injEq] at h
  omega

theorem witness_ObedientHostIsNeverRefused :
    HostObeys (block [.request 0x230000000700000000 2, .reset, .idle] []) := by
  intro r l h
  simp only [block, List.mem_cons, PortEvent.request.injEq, reduceCtorEq, List.not_mem_nil, or_false] at h
  rw [h.1]
  decide

theorem witness_UnaryOperationsIgnoreB :
    (Instr.cvti 1 2).format = .unary ∧ (Instr.eq 1 2).format = .binary ∧ (Instr.cvti 1 2).withB 3 = .cvti 1 3 := by
  decide

theorem witness_UnpackGivesSignExponentAndSignificand :
    (0x007FFFFF : Word).toNat / 2 ^ 23 % 256 = 0 ∧ (0x00800000 : Word).toNat / 2 ^ 23 % 256 = 1 ∧
    (0xFF7FFFFF : Word).toNat / 2 ^ 23 % 256 = 254 := by decide

theorem witness_NormaliserHasAClosedForm : (0xFFFFFFFFFFFF : Nat) < 2 ^ 48 := by decide

theorem witness_NormaliserReturnsNoNaN : (0xFFFFFFFFFFFF : Nat) < 2 ^ 48 := by decide

theorem witness_ExponentsStayInRange :
    isFinite 0x7F7FFFFF = true ∧ isFinite 0x00000001 = true ∧ isZero 0x00000001 = false ∧
    (0x1FFFFFE : Nat) ≤ (unpack 0x7F7FFFFF).sig + (unpack 0x3FFFFFFF).sig >>> 0 := by decide

theorem witness_ArithmeticPropagatesNaN : isNaN 0x7F800001 = true ∧ isNaN 0xFFFFFFFF = true := by decide

theorem witness_AddComputesItsRule :
    (isNaN 0x7F800001 = true) ∧ (isInf 0x7F800000 = true ∧ isInf 0xFF800000 = true) ∧
    (isInf 0x7F800000 = true ∧ isFinite 0x7F7FFFFF = true) ∧
    (isFinite 0x3F800000 = true ∧ isFinite 0x33000000 = true ∧
      (unpack 0x3F800000).exp - (unpack 0x33000000).exp = 25) ∧
    (isFinite 0x3F800000 = true ∧ isFinite 0x33800000 = true ∧
      (unpack 0x3F800000).exp - (unpack 0x33800000).exp = 24) ∧
    ((unpack 0x33000000).exp < (unpack 0x3F800000).exp) := by decide

theorem witness_ZeroSumsArePositive :
    isFinite 0xFF7FFFFF = true ∧ isZero 0x80000000 = true ∧ isZero 0x00000000 = true ∧
    (isNaN 0x7F800000 = false ∧ (0x7F800000 : Word) ≠ 0x80000000) ∧
    (isNaN 0x80000001 = false ∧ (0x80000001 : Word) ≠ 0x80000000) := by decide

theorem witness_AddAbsorbsTheSmallOperand :
    isFinite 0x3F800000 = true ∧ isFinite 0x33800000 = true ∧
    (unpack 0x33800000).exp + 24 = (unpack 0x3F800000).exp := by decide

theorem witness_SubIsAddOfTheNegated :
    isNaN 0x7FC00000 = true ∧ isFinite 0x80000000 = true ∧ (isFinite 0x00000001 = true ∧ isZero 0x00000001 = false) := by
  decide

theorem witness_MulComputesItsRule :
    isNaN 0xFF800001 = true ∧ (isInf 0xFF800000 = true ∧ isZero 0x80000000 = true) ∧
    (isInf 0x7F800000 = true ∧ isNaN 0x00000001 = false ∧ isZero 0x00000001 = false) ∧
    (isFinite 0x7F7FFFFF = true ∧ isFinite 0x00000000 = true) := by decide

theorem witness_MulOfNormalsKeepsTheTopBits :
    (isNorm 0x00800000 = true ∧ isNorm 0x3F800000 = true ∧
      (field 0x00800000).toNat + (field 0x3F800000).toNat = 1 + 127 ∧
      (2 ^ 23 + (frac 0x00800000).toNat) * (2 ^ 23 + (frac 0x3F800000).toNat) < 2 ^ 47) ∧
    (isNorm 0x3FFFFFFF = true ∧ isNorm 0x7EFFFFFF = true ∧
      (field 0x3FFFFFFF).toNat + (field 0x7EFFFFFF).toNat = 253 + 127 ∧
      2 ^ 47 ≤ (2 ^ 23 + (frac 0x3FFFFFFF).toNat) * (2 ^ 23 + (frac 0x7EFFFFFF).toNat)) := by decide

theorem witness_DivComputesItsRule :
    isNaN 0x7F800001 = true ∧ isZero 0x80000000 = true ∧ (isInf 0x7F800000 = true ∧ isInf 0xFF800000 = true) ∧
    (isInf 0x7F800000 = true ∧ isFinite 0x00000001 = true ∧ isZero 0x00000001 = false) ∧
    (isFinite 0x80000000 = true ∧ isInf 0xFF800000 = true) ∧
    (isFinite 0x7F7FFFFF = true ∧ isFinite 0x00000001 = true ∧ isZero 0x00000001 = false) := by decide

theorem witness_DivOfEqualExponentsIsTheQuotient :
    isNorm 0x3F800000 = true ∧ isNorm 0x3FFFFFFF = true ∧ field 0x3F800000 = field 0x3FFFFFFF ∧
    2 ^ 23 + (frac 0x3F800000).toNat < 2 ^ 23 + (frac 0x3FFFFFFF).toNat := by decide

theorem witness_EqComparesRawBits :
    (0xFF800001 : Word).toNat % 2 ^ 31 > 0x7F800000 ∧ (0x7F800000 : Word).toNat % 2 ^ 31 ≤ 0x7F800000 ∧
    (0x00000000 : Word) ≠ 0x80000000 := by decide

theorem witness_ExpoReturnsTheExponent :
    (0xFF800000 : Word).toNat / 2 ^ 23 % 256 = 255 ∧ (0x7F7FFFFF : Word).toNat / 2 ^ 23 % 256 = 254 ∧
    (0x80000001 : Word).toNat / 2 ^ 23 % 256 = 0 := by decide

theorem witness_CvtuHasAClosedForm :
    0x01FFFFFE < (0x01FFFFFF : Word).toNat ∧ (0 < (1 : Word).toNat ∧ (1 : Word).toNat < 2 ^ 24) ∧
    (2 ^ 24 ≤ (0x01FFFFFE : Word).toNat ∧ (0x01FFFFFE : Word).toNat ≤ 0x01FFFFFE) ∧
    (0x00FFFFFF : Word).toNat < 2 ^ 24 := by decide

theorem witness_CvtsCopiesTheSign :
    (0 : Word).toInt = 0 ∧ 0x01FFFFFE < (0xFE000001 : Word).toInt.natAbs ∧
    (0x80000000 : Word).toInt.natAbs = 2 ^ 31 ∧
    (0 < (0xFE000002 : Word).toInt.natAbs ∧ (0xFE000002 : Word).toInt.natAbs ≤ 0x01FFFFFE) := by decide

theorem witness_IntegersSurviveTheRoundTrip :
    (0xFE000002 : Word).toInt.natAbs ≤ 0x01FFFFFE ∧ (0xFF000000 : Word).toInt.natAbs ≤ 2 ^ 24 ∧
    (2 ^ 24 < (0x01000001 : Word).toInt.natAbs ∧ (0x01000001 : Word).toInt.natAbs % 2 = 1) := by decide

theorem witness_CvtiTruncatesTowardZero :
    158 ≤ (0x4F000000 : Word).toNat / 2 ^ 23 % 256 ∧ (0x3F7FFFFF : Word).toNat / 2 ^ 23 % 256 < 127 ∧
    (0x3F800000 : Word).toNat / 2 ^ 23 % 256 = 127 ∧ (0xCEFFFFFF : Word).toNat / 2 ^ 23 % 256 = 157 := by decide

end Sys2Proof.Tests
end

section
/-! PROOF. O13: a lone request is answered exactly LATENCY steps after it is accepted (00_scope.md R5;
70_reset_and_hazards.md R121, R123). First come the decoder on an encoded request, the meaning of every instruction as
one response, and the equations of a step, each said once. -/

namespace Sys2Proof

@[simp] theorem decode_encode (i : Instr) : decode (encode i) = .ok i := by
  cases i <;> simp [decode, encode]

end Sys2Proof

namespace Sys2Proof.Machine

variable {s : State} {i : Instr}

@[simp] theorem response_respond (s : State) (w : Word) : (s.respond w).response = some w := rfl
@[simp] theorem response_silent (s : State) : s.silent.response = none := rfl

/-- Every instruction's meaning is to present its answer, one and the same word in every state (R22). -/
theorem exec_eq_respond (i : Instr) : ∃ w, answerOf i = some w ∧ ∀ s, exec i s = .next (s.respond w) := by
  cases i <;> exact ⟨_, rfl, fun _ => rfl⟩

theorem answerOldest_of_due {rest : List InFlight} (h : s.inFlight = { request := i, wait := 0 } :: rest) :
    answerOldest s = exec i (State.tick { s with inFlight := rest }) := by
  rw [answerOldest, due_eq_some.mpr ⟨rest, h, rfl⟩]

theorem answerOldest_of_not_due (h : ∀ i rest, s.inFlight ≠ { request := i, wait := 0 } :: rest) :
    answerOldest s = .next s.tick.silent := by
  rw [answerOldest, due_eq_none.mpr h]

theorem step_of_inbox_nil (h : s.inbox = []) : step s = answerOldest s := by
  rw [step, takeEvent_nil h]

theorem step_of_request {r : Request} {l : Nat} {es : List PortEvent} (h : s.inbox = .request r l :: es)
    (hd : decode r = .ok i) : step s = answerOldest (State.accept { s with inbox := es } i l) := by
  rw [step, takeEvent_cons h]
  simp only [hd]

/-- Two states with the same step have the same runs of at least one step. -/
theorem machine_run_succ_congr (M : Host.Core) {s t : M.State} (n : Nat) (h : M.step s = M.step t) :
    M.run (n + 1) s = M.run (n + 1) t := by
  simp only [Host.Core.run, h]

theorem core_run_succ_congr {t : State} (n : Nat) (h : step s = step t) :
    Sys2Proof.core.run (n + 1) s = Sys2Proof.core.run (n + 1) t :=
  machine_run_succ_congr Sys2Proof.core n h

/-! ### A lone request in flight, with nothing more to come -/

/-- Accepting a lone request acts as a step that starts with it already in flight and nothing to come. -/
theorem step_of_lone_request {L : Nat} (hf : s.inFlight = []) (hi : s.inbox = [.request (encode i) L]) :
    ∃ u : State, step s = step u ∧ u.inbox = [] ∧ u.inFlight = [{ request := i, wait := L }] := by
  refine ⟨State.accept { s with inbox := [] } i L, ?_, rfl, by simp [hf]⟩
  rw [step_of_request hi (decode_encode i), step_of_inbox_nil rfl]

theorem step_of_lone_waiting {n : Nat} (hi : s.inbox = []) (hf : s.inFlight = [{ request := i, wait := n + 1 }]) :
    step s = .next s.tick.silent := by
  rw [step_of_inbox_nil hi, answerOldest_of_not_due]
  simp [hf]

theorem step_of_lone_due (hi : s.inbox = []) (hf : s.inFlight = [{ request := i, wait := 0 }]) :
    ∃ t, step s = .next t ∧ t.response = answerOf i ∧ t.inFlight = [] := by
  obtain ⟨w, hw, hexec⟩ := exec_eq_respond i
  exact ⟨_, by rw [step_of_inbox_nil hi, answerOldest_of_due hf, hexec], (response_respond _ w).trans hw.symm, rfl⟩

/-- For as many steps as its LATENCY lasts, a lone request waits, and none of these steps presents a response. -/
theorem run_of_lone_waiting {L : Nat} (hi : s.inbox = []) (hf : s.inFlight = [{ request := i, wait := L }])
    (k : Nat) (hk : k ≤ L) :
    ∃ t : State, Sys2Proof.core.run k s = .next t ∧ t.inbox = [] ∧
      t.inFlight = [{ request := i, wait := L - k }] ∧ (0 < k → t.response = none) := by
  induction k with
  | zero => exact ⟨s, rfl, hi, hf, fun h => absurd h (Nat.lt_irrefl 0)⟩
  | succ k ih =>
    obtain ⟨t, hrun, hti, htf, -⟩ := ih (Nat.le_of_succ_le hk)
    have hwait : L - k = (L - (k + 1)) + 1 := by omega
    have hstep : step t = .next t.tick.silent := step_of_lone_waiting hti (hwait ▸ htf)
    refine ⟨t.tick.silent, ?_, hti, ?_, fun _ => response_silent _⟩
    · rw [core_run_add k 1 hrun, core_run_one hstep]
    · simp [htf, InFlight.tick, Nat.sub_sub]

/-- The step after its LATENCY answers a lone request and leaves nothing in flight. -/
theorem run_of_lone_answers {L : Nat} (hi : s.inbox = []) (hf : s.inFlight = [{ request := i, wait := L }]) :
    ∃ t : State, Sys2Proof.core.run (L + 1) s = .next t ∧ t.response = answerOf i ∧ t.inFlight = [] := by
  obtain ⟨u, hrun, hui, huf, -⟩ := run_of_lone_waiting hi hf L (Nat.le_refl L)
  rw [Nat.sub_self] at huf
  obtain ⟨t, hstep, hresp, htf⟩ := step_of_lone_due hui huf
  exact ⟨t, by rw [core_run_add L 1 hrun, core_run_one hstep], hresp, htf⟩

/-- Settles O13: the run is that of the request in flight from the start (`step_of_lone_request`), which waits for its
LATENCY (`run_of_lone_waiting`) and is answered in the next step (`run_of_lone_answers`). -/
theorem loneRequestIsAnsweredAfterItsLatency : Obligations.LoneRequestIsAnsweredAfterItsLatency := by
  intro s i L hf hi
  obtain ⟨u, hstep, hui, huf⟩ := step_of_lone_request hf hi
  constructor
  · intro k hk
    obtain ⟨t, hrun, -, -, hnone⟩ := run_of_lone_waiting hui huf (k + 1) hk
    exact ⟨t, (core_run_succ_congr k hstep).trans hrun, hnone k.succ_pos⟩
  · obtain ⟨t, hrun, hresp, htf⟩ := run_of_lone_answers hui huf
    obtain ⟨w, hw, -⟩ := exec_eq_respond i
    exact ⟨t, (core_run_succ_congr L hstep).trans hrun, hresp, htf, by simp [hw]⟩

end Sys2Proof.Machine
end

section
/-! PROOF. O14, O10, O16: what every step keeps of the queue, and that a result depends on the request alone
(10_state.md R22, R23; 70_reset_and_hazards.md R117, R121). The pipeline's bound `L` holds between steps; once a step
has accepted its request, and before it gives out the response port, the same bound holds for `L + 1`. -/

namespace Sys2Proof.Machine

variable {s t : State} {i : Instr} {L l : Nat} {q : List InFlight}

/-! ### What the response half and the whole step leave of the inbox and the queue -/

/-- Executing a request leaves the inbox and the queue unchanged. -/
theorem exec_frame (h : exec i s = .next t) : t.inbox = s.inbox ∧ t.inFlight = s.inFlight := by
  obtain ⟨w, -, hexec⟩ := exec_eq_respond i
  rw [hexec] at h
  cases h
  exact ⟨rfl, rfl⟩

/-- The response half of a step leaves the inbox unchanged and ticks the requests that stay in flight: those behind the
oldest when it is due, and all of them when it is not. -/
theorem answerOldest_frame (h : answerOldest s = .next t) :
    t.inbox = s.inbox ∧ ∃ rest, t.inFlight = rest.map InFlight.tick ∧
      ((∃ i, s.inFlight = { request := i, wait := 0 } :: rest) ∨
        rest = s.inFlight ∧ ∀ i r, s.inFlight ≠ { request := i, wait := 0 } :: r) := by
  rcases answerOldest_cases h with ⟨i, rest, hq, hexec⟩ | ⟨hnd, rfl⟩
  · obtain ⟨hinbox, hflight⟩ := exec_frame hexec
    exact ⟨hinbox, rest, hflight, .inl ⟨i, hq⟩⟩
  · exact ⟨rfl, s.inFlight, rfl, .inr ⟨rfl, hnd⟩⟩

/-- A step uses up the first event of the inbox and no other. -/
theorem step_inbox (h : step s = .next t) : t.inbox = s.inbox.tail := by
  rcases step_cases h with ⟨es, hi, rfl⟩ | ⟨u, hu, hans⟩
  · simp [hi]
  · rw [(answerOldest_frame hans).1]
    rcases hu with ⟨hi, rfl⟩ | ⟨es, hi, rfl⟩ | ⟨r, l, i, es, hi, -, rfl⟩ <;> simp [hi]

/-! ### The pipeline's bound, as a predicate of the queue alone -/

/-- The part of `PipelineWithin` that speaks of the queue. -/
def QueueWithin (L : Nat) (q : List InFlight) : Prop :=
  q.length ≤ L ∧ ∀ k (h : k < q.length), q[k].wait = 0 ∨ q[k].wait + (q.length - 1 - k) < L

theorem pipelineWithin_iff :
    PipelineWithin L s ↔ (∀ r l, PortEvent.request r l ∈ s.inbox → l ≤ L) ∧ QueueWithin L s.inFlight :=
  Iff.rfl

theorem queueWithin_nil (L : Nat) : QueueWithin L [] :=
  ⟨Nat.zero_le L, fun _ h => absurd h (Nat.not_lt_zero _)⟩

theorem QueueWithin.succ (h : QueueWithin L q) : QueueWithin (L + 1) q :=
  ⟨Nat.le_succ_of_le h.1, fun k hk => (h.2 k hk).imp_right Nat.lt_succ_of_lt⟩

theorem QueueWithin.of_cons {e : InFlight} (h : QueueWithin L (e :: q)) : QueueWithin L q := by
  obtain ⟨hlen, hwait⟩ := h
  rw [List.length_cons] at hlen
  refine ⟨by omega, fun k hk => ?_⟩
  have hk1 := hwait (k + 1) (by simpa using hk)
  simp only [List.getElem_cons_succ, List.length_cons] at hk1
  omega

/-- Accepting a request puts one more behind each older one, and none behind the new one. -/
theorem QueueWithin.append (h : QueueWithin L q) (i : Instr) (hl : l ≤ L) :
    QueueWithin (L + 1) (q ++ [{ request := i, wait := l }]) := by
  obtain ⟨hlen, hwait⟩ := h
  refine ⟨by simpa using hlen, fun k hk => ?_⟩
  rw [List.length_append, List.length_singleton] at hk ⊢
  by_cases hold : k < q.length
  · rw [List.getElem_append_left hold]
    have := hwait k hold
    omega
  · rw [List.getElem_append_right (by omega), List.getElem_singleton]
    right
    show l + _ < L + 1
    omega

/-- A step of LATENCY makes up for the request accepted in it, as long as the queue is short enough. -/
theorem QueueWithin.map_tick (h : QueueWithin (L + 1) q) (hlen : q.length ≤ L) :
    QueueWithin L (q.map InFlight.tick) := by
  refine ⟨by simpa using hlen, fun k hk => ?_⟩
  rw [List.length_map] at hk ⊢
  rw [List.getElem_map, tick_wait]
  have := h.2 k hk
  omega

/-- When the oldest request still has to wait, its own bound leaves one place less for those behind it. -/
theorem QueueWithin.length_le_of_not_due (h : QueueWithin (L + 1) q)
    (hnd : ∀ i rest, q ≠ { request := i, wait := 0 } :: rest) : q.length ≤ L := by
  cases q with
  | nil => exact Nat.zero_le L
  | cons e rest =>
    have hwait : e.wait ≠ 0 := fun h0 => hnd e.request rest (by rw [← h0])
    have hhead := h.2 0 (Nat.succ_pos _)
    simp only [List.getElem_cons_zero, List.length_cons] at hhead ⊢
    omega

/-! ### The invariant, over the two halves of a step -/

/-- The response half of a step restores the bound that accepting a request has raised by one. -/
theorem answerOldest_queueWithin (h : answerOldest s = .next t) (hq : QueueWithin (L + 1) s.inFlight) :
    QueueWithin L t.inFlight := by
  obtain ⟨-, rest, hrest, ⟨i, hdue⟩ | ⟨rfl, hnd⟩⟩ := answerOldest_frame h
  · rw [hdue] at hq
    rw [hrest]
    exact hq.of_cons.map_tick (Nat.le_of_succ_le_succ hq.1)
  · rw [hrest]
    exact hq.map_tick (hq.length_le_of_not_due hnd)

theorem step_queueWithin (h : step s = .next t) (hs : PipelineWithin L s) : QueueWithin L t.inFlight := by
  obtain ⟨hlat, hq⟩ := pipelineWithin_iff.mp hs
  rcases step_cases h with ⟨es, -, rfl⟩ | ⟨u, hu, hans⟩
  · exact queueWithin_nil L
  · refine answerOldest_queueWithin hans ?_
    rcases hu with ⟨-, rfl⟩ | ⟨es, -, rfl⟩ | ⟨r, l, i, es, hi, -, rfl⟩
    · exact hq.succ
    · exact hq.succ
    · exact hq.append i (hlat r l (by simp [hi]))

/-- Settles O14: the latencies to come are among those of before (`step_inbox`), and the queue keeps its bound
(`step_queueWithin`). -/
theorem pipelineDepthStaysWithinLatency : Obligations.PipelineDepthStaysWithinLatency := by
  intro L s t hs h
  refine pipelineWithin_iff.mpr ⟨fun r l hmem => hs.1 r l ?_, step_queueWithin h hs⟩
  rw [step_inbox h] at hmem
  exact List.mem_of_mem_tail hmem

/-! ### The reset state -/

theorem hostObeys_of_inbox_nil (h : s.inbox = []) : HostObeys s := by
  simp [HostObeys, h]

theorem pipelineWithin_of_idle (L : Nat) (hi : s.inbox = []) (hf : s.inFlight = []) : PipelineWithin L s :=
  pipelineWithin_iff.mpr ⟨by simp [hi], hf ▸ queueWithin_nil L⟩

/-- Settles O10: both invariants hold of every state with nothing to come and nothing in flight. -/
theorem resetStateIsIdle : Obligations.ResetStateIsIdle :=
  ⟨rfl, rfl, rfl, hostObeys_of_inbox_nil rfl, fun L => pipelineWithin_of_idle L rfl rfl⟩

/-! ### The result of a request -/

/-- Settles O16: the function is the choice of the word that `exec_eq_respond` gives for each request. -/
theorem resultDependsOnTheRequestAlone : Obligations.ResultDependsOnTheRequestAlone := by
  choose f hanswer hexec using exec_eq_respond
  exact ⟨f, fun i s => ⟨hanswer i, hexec i s⟩⟩

end Sys2Proof.Machine
end

section
/-! PROOF. O11, O7, O8: what a step does with the requests in flight (20_memory.md R30; 30_encoding.md R35; 10_state.md
R22, R23). It answers the oldest when it is due and presents nothing when it is not, and either way no answer is lost,
doubled or overtaken: the responses delivered and the answers still owed always add up to the same list. -/

namespace Sys2Proof.Machine

variable {s t : State} {i : Instr}

/-! ### The answers owed, after each operation of the step -/

@[simp] theorem owed_respond (s : State) (w : Word) : (s.respond w).owed = s.owed := rfl
@[simp] theorem owed_silent (s : State) : s.silent.owed = s.owed := rfl

@[simp] theorem owed_tick (s : State) : s.tick.owed = s.owed := by
  simp [State.owed]

@[simp] theorem owed_accept (s : State) (i : Instr) (l : Nat) : (s.accept i l).owed = s.owed ++ [answerOf i] := by
  simp [State.owed]

@[simp] theorem owed_withInbox (s : State) (es : List PortEvent) : State.owed { s with inbox := es } = s.owed := rfl

theorem owed_of_due {rest : List InFlight} (h : s.inFlight = { request := i, wait := 0 } :: rest) :
    s.owed = answerOf i :: State.owed { s with inFlight := rest } := by
  simp [State.owed, h]

/-! ### Conservation of answers, over the response half, the step, and any run -/

/-- The response half of a step delivers the first answer owed or none, and owes the rest. -/
theorem answerOldest_conserves_answers (h : answerOldest s = .next t) :
    t.response.toList.map some ++ t.owed = s.owed := by
  rcases answerOldest_cases h with ⟨i, rest, hq, hexec⟩ | ⟨-, rfl⟩
  · obtain ⟨w, hw, hexec'⟩ := exec_eq_respond i
    rw [hexec'] at hexec
    cases hexec
    simp [owed_of_due hq, hw]
  · simp

/-- A step that takes no reset adds to the answers owed that of the request it accepts, at the end. -/
theorem step_conserves_answers (h : step s = .next t) (hr : PortEvent.reset ∉ s.inbox.take 1) :
    t.response.toList.map some ++ t.owed =
      s.owed ++ ((s.inbox.take 1).filterMap PortEvent.accepted).map answerOf := by
  rcases step_cases h with ⟨es, hi, -⟩ | ⟨u, hu, hans⟩
  · simp [hi] at hr
  · rw [answerOldest_conserves_answers hans]
    rcases hu with ⟨hi, rfl⟩ | ⟨es, hi, rfl⟩ | ⟨r, l, i, es, hi, hd, rfl⟩
    · simp [hi]
    · simp [hi, PortEvent.accepted]
    · simp [hi, hd, PortEvent.accepted, Except.toOption]

/-- A trace of `n + 1` steps is a first step, with the response it presents, and a trace of `n` from there. -/
theorem trace_succ_cases {n : Nat} {rs : List Word} (h : trace (n + 1) s = some (rs, t)) :
    ∃ u rs', step s = .next u ∧ trace n u = some (rs', t) ∧ rs = u.response.toList ++ rs' := by
  rw [trace] at h
  split at h
  · next u hu =>
    obtain ⟨⟨rs', t'⟩, htrace, heq⟩ := Option.map_eq_some_iff.mp h
    cases heq
    exact ⟨u, rs', hu, htrace, rfl⟩
  · cases h
  · cases h

/-- Settles O11, by induction on the number of steps: the first step adds the answer of the request it accepts
(`step_conserves_answers`), and the rest of the run goes on from the inbox without that event (`step_inbox`). -/
theorem responsesFollowRequestOrder : Obligations.ResponsesFollowRequestOrder := by
  intro n
  induction n with
  | zero =>
    intro s t rs _ h
    cases h
    simp
  | succ n ih =>
    intro s t rs hr h
    obtain ⟨u, rs', hstep, htrace, rfl⟩ := trace_succ_cases h
    rw [Nat.add_comm n 1, List.take_add, List.drop_one, ← step_inbox hstep] at hr ⊢
    rw [List.mem_append, not_or] at hr
    obtain ⟨hfirst, hrest⟩ := hr
    have hone := step_conserves_answers hstep hfirst
    have hlater := ih u t rs' hrest htrace
    calc (u.response.toList ++ rs').map some ++ t.owed
        = u.response.toList.map some ++ (rs'.map some ++ t.owed) := by simp
      _ = (u.response.toList.map some ++ u.owed) ++
            ((u.inbox.take n).filterMap PortEvent.accepted).map answerOf := by rw [hlater, List.append_assoc]
      _ = s.owed ++ ((s.inbox.take 1 ++ u.inbox.take n).filterMap PortEvent.accepted).map answerOf := by
        rw [hone, List.filterMap_append, List.map_append, List.append_assoc]

/-! ### The step, by whether a request is due -/

theorem step_of_idle {es : List PortEvent} (h : s.inbox = .idle :: es) :
    step s = answerOldest { s with inbox := es } := by
  rw [step, takeEvent_cons h]

/-- Settles O7: accepting a request puts it behind the others, so the oldest stays the due one. -/
theorem stepAnswersTheOldestDueRequest : Obligations.StepAnswersTheOldestDueRequest := by
  intro s i rest hq
  refine ⟨fun hi => ?_, fun es hi => ?_, fun r l j es hi hd => ?_⟩
  · exact (step_of_inbox_nil hi).trans (answerOldest_of_due hq)
  · exact (step_of_idle hi).trans (answerOldest_of_due hq)
  · have hq' : (State.accept { s with inbox := es } j l).inFlight =
        { request := i, wait := 0 } :: (rest ++ [{ request := j, wait := l }]) := by simp [hq]
    exact (step_of_request hi hd).trans (answerOldest_of_due hq')

/-- The response half of a step when nothing is due: no response, and every request stays in flight. -/
theorem answerOldest_keeps_all_of_not_due (h : ∀ i rest, s.inFlight ≠ { request := i, wait := 0 } :: rest) :
    ∃ t, answerOldest s = .next t ∧ t.validOut = false ∧ t.inbox = s.inbox ∧
      t.inFlight = s.inFlight.map InFlight.tick :=
  ⟨s.tick.silent, answerOldest_of_not_due h, rfl, rfl, rfl⟩

/-- Settles O8: whatever the port carries, what is left is the response half with nothing due
(`answerOldest_keeps_all_of_not_due`). -/
theorem stepPresentsNothingWhenNothingIsDue : Obligations.StepPresentsNothingWhenNothingIsDue := by
  intro s
  constructor
  · rintro (hi | ⟨es, hi⟩) hnd
    · rw [step_of_inbox_nil hi, hi, List.tail_nil, ← hi]
      exact answerOldest_keeps_all_of_not_due hnd
    · rw [step_of_idle hi, hi, List.tail_cons]
      exact answerOldest_keeps_all_of_not_due (s := { s with inbox := es }) hnd
  · intro r l j es hi hd hnd
    rw [step_of_request hi hd]
    exact answerOldest_keeps_all_of_not_due (s := State.accept { s with inbox := es } j l) hnd

end Sys2Proof.Machine
end

section
/-! PROOF. O1, O2, O3, O4, O5, O17: the request word (30_encoding.md R34 to R43). Decoding is the inverse of encoding,
both ways, so a word decodes exactly when it is the word of some instruction; every other word has a reserved `op`. -/

namespace Sys2Proof

variable {r : Request} {i : Instr} {op : BitVec 8}

/-! ### The decoder: the instruction of the word, or the error that names a reserved `op` -/

/-- A word whose `op` field is known is made of that `op` and its two operand fields. -/
theorem requestOf_operands (h : (requestOp r).toNat = op.toNat) : requestOf op (requestA r) (requestB r) = r := by
  rw [← BitVec.eq_of_toNat_eq h, requestOf_fields]

/-- R41's list of ranges as a proposition. -/
theorem reservedOp_iff :
    reservedOp op = true ↔
      (0x05 ≤ op.toNat ∧ op.toNat ≤ 0x0F) ∨ (0x18 ≤ op.toNat ∧ op.toNat ≤ 0x1F) ∨
        (0x24 ≤ op.toNat ∧ op.toNat ≤ 0x2F) ∨ (0x30 ≤ op.toNat ∧ op.toNat ≤ 0xFF) := by
  simp [reservedOp, or_assoc]

/-- The encoding of an instruction has a non-reserved `op` (R40, R41). -/
theorem reservedOp_requestOp_encode (i : Instr) : reservedOp (requestOp (encode i)) = false := by
  cases i <;> rw [encode, requestOp_requestOf] <;> decide

/-- What decoding can give: an instruction that encodes to the same word, or the error for a reserved `op`. -/
theorem decode_cases (r : Request) :
    (∃ i, decode r = .ok i ∧ encode i = r) ∨
      (decode r = .error (.reservedOp (requestOp r)) ∧ reservedOp (requestOp r) = true) := by
  unfold decode
  split
  case h_18 =>
    have hop := (requestOp r).isLt
    refine .inr ⟨rfl, reservedOp_iff.mpr ?_⟩
    simp only [imp_false] at *
    omega
  all_goals
    next hop => exact .inl ⟨_, rfl, requestOf_operands hop⟩

/-- Decoding gives exactly the instruction whose encoding the word is. -/
theorem decode_eq_ok_iff : decode r = .ok i ↔ encode i = r := by
  constructor
  · intro h
    rcases decode_cases r with ⟨j, hj, hr⟩ | ⟨he, -⟩
    · cases hj.symm.trans h
      exact hr
    · cases he.symm.trans h
  · rintro rfl
    exact decode_encode i

/-- A word with a reserved `op` is the encoding of no instruction, so it decodes to the error that names the `op`. -/
theorem decode_of_reserved (h : reservedOp (requestOp r) = true) :
    decode r = .error (.reservedOp (requestOp r)) := by
  rcases decode_cases r with ⟨i, -, rfl⟩ | ⟨he, -⟩
  · cases (reservedOp_requestOp_encode i).symm.trans h
  · exact he

/-- Decoding fails for no other reason than a reserved `op`. -/
theorem reserved_of_decode_error {e : DecodeError} (h : decode r = .error e) : reservedOp (requestOp r) = true := by
  rcases decode_cases r with ⟨i, hi, -⟩ | ⟨-, hop⟩
  · cases hi.symm.trans h
  · exact hop

theorem decode_of_not_reserved (h : reservedOp (requestOp r) = false) : ∃ i, decode r = .ok i := by
  rcases decode_cases r with ⟨i, hi, -⟩ | ⟨-, hop⟩
  · exact ⟨i, hi⟩
  · cases h.symm.trans hop

/-- Settles O1, by one direction of `decode_eq_ok_iff`. -/
theorem decodeOfEncodeIsIdentity : Obligations.DecodeOfEncodeIsIdentity :=
  fun _ => decode_eq_ok_iff.mpr rfl

/-- Settles O2, by the other direction of `decode_eq_ok_iff`. -/
theorem encodeOfDecodeIsIdentity : Obligations.EncodeOfDecodeIsIdentity :=
  fun _ _ => decode_eq_ok_iff.mp

/-- Settles O5: a word written out is the encoding of its operation, and the last one has a reserved `op`. -/
theorem writtenRequestsDecode : Obligations.WrittenRequestsDecode := by
  refine ⟨?_, ?_, ?_, ?_, ?_, ?_, decode_of_reserved (by decide)⟩ <;> exact decode_eq_ok_iff.mpr (by decide)

end Sys2Proof

namespace Sys2Proof.Machine

variable {s : State} {i j : Instr}

/-! ### Reserved and non-reserved requests -/

/-- A step whose request has a reserved `op` is refused by name, whatever is in flight (R41). -/
theorem step_of_reserved {r : Request} {l : Nat} {es : List PortEvent} (h : s.inbox = .request r l :: es)
    (hop : reservedOp (requestOp r) = true) : step s = .refused (.reservedOp (requestOp r)) := by
  rw [step, takeEvent_cons h]
  simp only [decode_of_reserved hop]

/-- R41's count: 31 reserved values lie below 0x30, and all 208 from there on are reserved. -/
theorem length_reservedOps : ((List.range 256).filter fun n => reservedOp (BitVec.ofNat 8 n)).length = 239 := by
  have hlow : ((List.range 48).filter fun n => reservedOp (BitVec.ofNat 8 n)).length = 31 := by decide
  have hhigh : ∀ n ∈ (List.range 208).map (48 + ·), reservedOp (BitVec.ofNat 8 n) = true := by
    intro n hn
    obtain ⟨k, hk, rfl⟩ := List.mem_map.mp hn
    rw [List.mem_range] at hk
    rw [reservedOp_iff, BitVec.toNat_ofNat]
    omega
  rw [show 256 = 48 + 208 from rfl, List.range_add, List.filter_append, List.filter_eq_self.mpr hhigh,
    List.length_append, hlow, List.length_map, List.length_range]

/-- Settles O3: a word `op ++ a ++ b` has `op` in its first field (`requestOp_requestOf`), and its decoding fails
exactly when that is reserved (`decode_of_reserved`, `reserved_of_decode_error`). -/
theorem reservedOpsAreRefused : Obligations.ReservedOpsAreRefused := by
  refine ⟨fun op a b hrange => ?_, fun op a b herror => ?_, length_reservedOps⟩
  · have hop : requestOp (op ++ a ++ b) = op := requestOp_requestOf op a b
    have hres : reservedOp (requestOp (op ++ a ++ b)) = true := hop.symm ▸ reservedOp_iff.mpr hrange
    constructor
    · rw [decode_of_reserved hres, hop]
    · intro s l es hi
      rw [step_of_reserved hi hres, hop]
  · obtain ⟨e, he⟩ := herror
    have hres := reserved_of_decode_error he
    rw [show requestOp (op ++ a ++ b) = op from requestOp_requestOf op a b] at hres
    exact reservedOp_iff.mp hres

/-- Settles O4: the request decodes (`decode_of_not_reserved`), and every instruction's meaning is to present one word
(`exec_eq_respond`). -/
theorem everyUnreservedRequestIsAnswered : Obligations.EveryUnreservedRequestIsAnswered := by
  intro op a b hop
  rw [← requestOp_requestOf op a b] at hop
  obtain ⟨i, hi⟩ := decode_of_not_reserved hop
  exact ⟨i, hi, exec_eq_respond i⟩

/-! ### The two formats: which operands have influence (R36) -/

/-- The meaning of a format U request does not mention `b`. -/
theorem exec_withB_of_unary (h : i.format = .unary) (b : Word) (s : State) : exec (i.withB b) s = exec i s := by
  cases i
  case add | sub | mul | div | eq => cases h
  all_goals rfl

theorem format_eq_binary_iff :
    i.format = .binary ↔ ∃ a b, i = .add a b ∨ i = .sub a b ∨ i = .mul a b ∨ i = .div a b ∨ i = .eq a b := by
  cases i <;> simp [Instr.format]

/-- Two requests with different answers have different outcomes in every state. -/
theorem exec_ne_of_answerOf_ne (h : answerOf i ≠ answerOf j) (s : State) : exec i s ≠ exec j s := by
  obtain ⟨w, hw, hexec⟩ := exec_eq_respond i
  obtain ⟨v, hv, hexec'⟩ := exec_eq_respond j
  intro heq
  rw [hexec, hexec', Host.Outcome.next.injEq] at heq
  have hwv : w = v := congrArg State.result heq
  exact h (by rw [hw, hv, hwv])

/-- Settles O17: in each format B operation, taking 2.0 for 1.0 in one operand, the other being 1.0, changes the answer,
and so the outcome in every state (`exec_ne_of_answerOf_ne`). -/
theorem unaryOperationsIgnoreB : Obligations.UnaryOperationsIgnoreB := by
  refine ⟨fun i b s h => exec_withB_of_unary h b s, fun i => format_eq_binary_iff, fun s => ?_, fun s => ?_⟩
  · have hb (c : Word → Word → Instr) (h : answerOf (c 0x3F800000 0x3F800000) ≠ answerOf (c 0x3F800000 0x40000000)) :
        ∃ a b b', exec (c a b) s ≠ exec (c a b') s := ⟨_, _, _, exec_ne_of_answerOf_ne h s⟩
    exact ⟨hb .add (by decide), hb .sub (by decide), hb .mul (by decide), hb .div (by decide), hb .eq (by decide)⟩
  · have ha (c : Word → Word → Instr) (h : answerOf (c 0x3F800000 0x3F800000) ≠ answerOf (c 0x40000000 0x3F800000)) :
        ∃ a a' b, exec (c a b) s ≠ exec (c a' b) s := ⟨_, _, _, exec_ne_of_answerOf_ne h s⟩
    exact ⟨ha .add (by decide), ha .sub (by decide), ha .mul (by decide), ha .div (by decide), ha .eq (by decide)⟩

end Sys2Proof.Machine
end

section
/-! PROOF. O18, O44: the NaN words and the literal (40_layout_literal.md R49, R50). `Config.nanWord` puts the exponent
field 0xFF above a fraction that is one more than its argument, so it ranges over exactly the words that `isNaN`
accepts, whichever of them the instance has for `NAN_SENTINEL`. -/

namespace Sys2Proof.Machine

variable {w a b : Word}

/-! ### The NaN words -/

theorem isNaN_iff : isNaN w = true ↔ field w = 0xFF ∧ frac w ≠ 0 := by
  simp [isNaN]

theorem nanWord_eq_pack (g : Bool) (k : Fin 8388607) :
    Config.nanWord g k = pack g 0xFF (BitVec.ofNat 23 (k.val + 1)) := rfl

/-- The fractions of `Config.nanWord` are the non-zero ones. -/
theorem ne_zero_iff_eq_succ_index (m : BitVec 23) : m ≠ 0 ↔ ∃ k : Fin 8388607, m = BitVec.ofNat 23 (k.val + 1) := by
  rw [ne_eq, BitVec.ofNat_eq_ofNat, ← BitVec.toNat_inj, BitVec.toNat_zero]
  constructor
  · intro hm
    have hlt := m.isLt
    refine ⟨⟨m.toNat - 1, by omega⟩, ?_⟩
    rw [Nat.sub_add_cancel (by omega), BitVec.ofNat_toNat, BitVec.setWidth_eq]
  · rintro ⟨⟨k, hk⟩, rfl⟩
    rw [BitVec.toNat_ofNat]
    omega

/-- R49's range: the NaN words are those of `Config.nanWord`. -/
theorem isNaN_iff_nanWord : isNaN w = true ↔ ∃ g k, w = Config.nanWord g k := by
  rw [isNaN_iff, ne_zero_iff_eq_succ_index]
  constructor
  · rintro ⟨hfield, k, hfrac⟩
    exact ⟨sign w, k, by rw [nanWord_eq_pack, ← hfield, ← hfrac, pack_parts]⟩
  · rintro ⟨g, k, rfl⟩
    rw [nanWord_eq_pack, field_pack, frac_pack]
    exact ⟨rfl, k, rfl⟩

@[simp] theorem isNaN_nanSentinel : isNaN Config.nanSentinel = true :=
  isNaN_iff_nanWord.mpr ⟨_, _, rfl⟩

/-- A NaN equals no word, itself included (R86). -/
theorem equalWords_of_isNaN_left (h : isNaN a = true) : equalWords a b = false := by
  simp [equalWords, h]

/-- Settles O18: `NAN_SENTINEL` is a NaN (`isNaN_nanSentinel`), so ISNAN answers 1 and EQ answers 0; the range clause is
`isNaN_iff_nanWord`. -/
theorem nanSentinelIsANaN : Obligations.NanSentinelIsANaN := by
  refine ⟨fun b s => ?_, fun x s => ?_, fun w => isNaN_iff_nanWord⟩
  · rw [exec_isNaN, isNaN_nanSentinel]
    rfl
  · rw [exec_eq, equalWords_of_isNaN_left isNaN_nanSentinel]
    rfl

/-! ### The literal -/

/-- Settles O44: the word is the encoding of `.lit a b`, and its meaning is to present `a` (`exec_lit`). -/
theorem litReturnsItsOperand : Obligations.LitReturnsItsOperand :=
  fun a b s => ⟨decode_eq_ok_iff.mpr rfl, exec_lit a b s⟩

end Sys2Proof.Machine
end

section
/-! PROOF. O40, O41: construction (41_construction.md R53 to R55). An integer below 2^24 is shifted left until its highest
set bit is bit 23, one from 2^24 to `CVT_MAX` is shifted right one place; either way the fraction is what the shifted
integer has below bit 23, so it denotes the shifted integer. CVTS is this on the magnitude, with the sign put back. -/

namespace Sys2Proof.Machine

variable {a : Word} {n v : Nat}

/-! ### The constructor's loop -/

/-- Below 2^24, bit 23 is clear exactly below 2^23. -/
theorem testBit_23_eq_false_iff (h : v < 2 ^ 24) : v.testBit 23 = false ↔ v < 2 ^ 23 := by
  rw [Nat.testBit_eq_decide_div_mod_eq, decide_eq_false_iff_not]
  omega

/-- The loop shifts left, and counts, as many places as the highest set bit is below bit 23. -/
theorem leadingShift_eq (k v : Nat) (shifts : Int) (h0 : v ≠ 0) (hlt : v < 2 ^ 24) (hk : 23 ≤ v.log2 + k) :
    leadingShift k v shifts = (v <<< (23 - v.log2), shifts + (23 - v.log2 : Nat)) := by
  have hlog : v.log2 < 24 := (Nat.log2_lt h0).mpr hlt
  induction k generalizing v shifts with
  | zero =>
    have hp : 23 - v.log2 = 0 := by omega
    simp [leadingShift, hp]
  | succ k ih =>
    by_cases hv : v < 2 ^ 23
    · have hdbl : v <<< 1 = 2 * v := by rw [Nat.shiftLeft_eq, Nat.mul_comm]
      have hdlog : (v <<< 1).log2 = v.log2 + 1 := by rw [hdbl, Nat.log2_two_mul h0]
      have hlog' : v.log2 < 23 := (Nat.log2_lt h0).mpr hv
      have hp : 23 - v.log2 = 1 + (23 - (v.log2 + 1)) := by omega
      rw [leadingShift, if_pos ((testBit_23_eq_false_iff hlt).mpr hv),
        ih (v <<< 1) (shifts + 1) (by omega) (by omega) (by omega) (by omega), hdlog, ← Nat.shiftLeft_add, ← hp]
      congr 1
      omega
    · have hlog' : 23 ≤ v.log2 := (Nat.le_log2 h0).mpr (Nat.le_of_not_lt hv)
      have hp : 23 - v.log2 = 0 := by omega
      rw [leadingShift, if_neg (hv ∘ (testBit_23_eq_false_iff hlt).mp), hp]
      simp

/-- The loop ends with bit 23 as the highest set bit. -/
theorem shiftLeft_to_bit_23_bounds (h0 : v ≠ 0) (hlt : v < 2 ^ 24) :
    2 ^ 23 ≤ v <<< (23 - v.log2) ∧ v <<< (23 - v.log2) < 2 ^ 24 := by
  have hlog : v.log2 < 24 := (Nat.log2_lt h0).mpr hlt
  rw [Nat.shiftLeft_eq]
  constructor
  · calc 2 ^ 23 = 2 ^ v.log2 * 2 ^ (23 - v.log2) := by rw [← Nat.pow_add]; congr 1; omega
      _ ≤ v * 2 ^ (23 - v.log2) := Nat.mul_le_mul_right _ (Nat.log2_self_le h0)
  · calc v * 2 ^ (23 - v.log2) < 2 ^ (v.log2 + 1) * 2 ^ (23 - v.log2) :=
          Nat.mul_lt_mul_of_pos_right Nat.lt_log2_self (Nat.two_pow_pos _)
      _ = 2 ^ 24 := by rw [← Nat.pow_add]; congr 1; omega

/-- The loop's shift and the exponent cancel. -/
theorem shiftLeft_to_bit_23_mul (h0 : v ≠ 0) (hlt : v < 2 ^ 24) : v <<< (23 - v.log2) * 2 ^ v.log2 = v * 2 ^ 23 := by
  have hlog : v.log2 < 24 := (Nat.log2_lt h0).mpr hlt
  rw [Nat.shiftLeft_eq, Nat.mul_assoc, ← Nat.pow_add]
  congr 2
  omega

/-- A significand with bit 23 highest is that bit and its stored fraction. -/
theorem implicitOne_add_fraction (hlo : 2 ^ 23 ≤ v) (hhi : v < 2 ^ 24) : 2 ^ 23 + (BitVec.ofNat 23 v).toNat = v := by
  rw [BitVec.toNat_ofNat]
  omega

/-! ### CVTU: an equation per range of a non-zero integer -/

theorem fromUnsigned_of_cvtMax_lt (h : cvtMax < n) : fromUnsigned n = Config.nanSentinel := by
  rw [fromUnsigned, if_neg (Nat.ne_zero_of_lt h), if_pos h]

theorem fromUnsigned_of_lt (h0 : n ≠ 0) (h : n < 2 ^ 24) :
    fromUnsigned n = pack false (BitVec.ofNat 8 (127 + n.log2)) (BitVec.ofNat 23 (n <<< (23 - n.log2))) := by
  have hlog : n.log2 < 24 := (Nat.log2_lt h0).mpr h
  have hexp : bias + 23 - (0 + ((23 - n.log2 : Nat) : Int)) = ((127 + n.log2 : Nat) : Int) := by
    rw [bias]
    omega
  rw [fromUnsigned, if_neg h0, if_neg (by rw [cvtMax]; omega), if_neg (by simp [Nat.testBit_lt_two_pow h]),
    leadingShift_eq 23 n 0 h0 h (by omega)]
  simp only [hexp, BitVec.ofInt_natCast]

theorem fromUnsigned_of_le (h : 2 ^ 24 ≤ n) (hmax : n ≤ cvtMax) :
    fromUnsigned n = pack false (BitVec.ofNat 8 (127 + n.log2)) (BitVec.ofNat 23 (n >>> 1)) := by
  have h0 : n ≠ 0 := by omega
  have hlt : n < 2 ^ 25 := by rw [cvtMax] at hmax; omega
  have hbit : n.testBit 24 = true := by
    rw [Nat.testBit_eq_decide_div_mod_eq, decide_eq_true_eq]
    omega
  have hlog : n.log2 = 24 := (Nat.log2_eq_iff h0).mpr ⟨h, hlt⟩
  rw [fromUnsigned, if_neg h0, if_neg (Nat.not_lt.mpr hmax), if_pos hbit, hlog]
  rfl

/-- Settles O40: zero is evaluated, each other range of the integer has its equation, and the fraction denotes the
integer shifted (`implicitOne_add_fraction`), which to the left loses nothing (`shiftLeft_to_bit_23_mul`). -/
theorem cvtuHasAClosedForm : Obligations.CvtuHasAClosedForm := by
  intro a b s
  refine ⟨decode_eq_ok_iff.mpr rfl, ?_, fun hmax => ?_, fun hpos hmax => ?_⟩
  · rintro rfl
    rfl
  · rw [exec_cvtu, asUnsigned, fromUnsigned_of_cvtMax_lt hmax]
    rfl
  · have h0 : a.toNat ≠ 0 := hpos.ne'
    rw [exec_cvtu, asUnsigned]
    by_cases h : a.toNat < 2 ^ 24
    · refine ⟨_, by rw [fromUnsigned_of_lt h0 h]; rfl, fun _ => ⟨rfl, ?_⟩, fun hge => absurd h (Nat.not_lt.mpr hge)⟩
      obtain ⟨hlo, hhi⟩ := shiftLeft_to_bit_23_bounds h0 h
      rw [implicitOne_add_fraction hlo hhi, shiftLeft_to_bit_23_mul h0 h]
    · have hhalf : a.toNat >>> 1 = a.toNat / 2 := by rw [Nat.shiftRight_eq_div_pow, Nat.pow_one]
      refine ⟨_, by rw [fromUnsigned_of_le (Nat.le_of_not_lt h) hmax]; rfl, fun hlt => absurd hlt h,
        fun _ => ⟨rfl, ?_⟩⟩
      rw [implicitOne_add_fraction (by omega) (by omega), hhalf]
      omega

/-! ### CVTS: the magnitude, and the sign put back -/

theorem sign_eq_toInt_neg (a : Word) : sign a = decide (a.toInt < 0) := by
  rw [sign_eq, decide_eq_decide, BitVec.toInt_neg_iff]
  omega

theorem magnitude_eq_natAbs (a : Word) : magnitude a = a.toInt.natAbs := by
  have h := a.isLt
  rw [magnitude, toNat_neg32, sign_eq, BitVec.toInt_eq_toNat_cond]
  simp only [decide_eq_true_eq]
  split_ifs <;> omega

theorem fromSigned_of_toInt_eq_zero (h : a.toInt = 0) : fromSigned a = 0x00000000 := by
  rw [fromSigned, magnitude_eq_natAbs, if_pos (Int.natAbs_eq_zero.mpr h)]

theorem fromSigned_of_cvtMax_lt (h : cvtMax < a.toInt.natAbs) : fromSigned a = Config.nanSentinel := by
  rw [fromSigned, magnitude_eq_natAbs, if_neg (Nat.ne_zero_of_lt h), if_pos h]

theorem fromSigned_of_le (h0 : a.toInt.natAbs ≠ 0) (hmax : a.toInt.natAbs ≤ cvtMax) :
    fromSigned a = pack (decide (a.toInt < 0)) (field (fromUnsigned a.toInt.natAbs))
      (frac (fromUnsigned a.toInt.natAbs)) := by
  rw [fromSigned, magnitude_eq_natAbs, if_neg h0, if_neg (Nat.not_lt.mpr hmax), sign_eq_toInt_neg]

/-- Settles O41: each range of the magnitude has its equation, and a magnitude up to `CVT_MAX` is an operand of CVTU. -/
theorem cvtsCopiesTheSign : Obligations.CvtsCopiesTheSign := by
  intro a b s
  refine ⟨decode_eq_ok_iff.mpr rfl, fun hzero => ?_, fun hmax => ?_, fun hpos hmax => ?_⟩
  · rw [exec_cvts, fromSigned_of_toInt_eq_zero hzero]
    rfl
  · rw [exec_cvts, fromSigned_of_cvtMax_lt hmax]
    rfl
  · have hop : (BitVec.ofNat 32 a.toInt.natAbs).toNat = a.toInt.natAbs := by
      rw [BitVec.toNat_ofNat, Nat.mod_eq_of_lt (by omega)]
    refine ⟨fromUnsigned a.toInt.natAbs, ?_, ?_⟩
    · rw [exec_cvtu, asUnsigned, hop]
      rfl
    · rw [exec_cvts, fromSigned_of_le hpos.ne' hmax]
      rfl

end Sys2Proof.Machine
end

section
/-! PROOF. O19, O22, O23: unpacking, the exponents before and after the carry stage, and the NaN handler
(42_arith_common.md R60, R61, R64, R66). -/

namespace Sys2Proof.Machine

variable {w a b : Word} {e : Int} {S : Nat}

/-! ### Unpacking: the two kinds of exponent field, and the ranges -/

theorem unpack_of_field_zero (h : field w = 0) :
    unpack w = { sign := sign w, exp := -126, sig := (frac w).toNat } := by
  rw [unpack, if_pos h]
  rfl

theorem unpack_of_field_ne_zero (h : field w ≠ 0) :
    unpack w = { sign := sign w, exp := (field w).toNat - 127, sig := 2 ^ 23 + (frac w).toNat } := by
  rw [unpack, if_neg h]
  rfl

@[simp] theorem sign_unpack (w : Word) : (unpack w).sign = sign w := by
  rw [unpack]
  split_ifs <;> rfl

theorem field_eq_zero_iff : field w = 0 ↔ w.toNat / 2 ^ 23 % 256 = 0 := by
  rw [← toNat_field, BitVec.ofNat_eq_ofNat, ← BitVec.toNat_inj, BitVec.toNat_zero]

theorem isFinite_iff : isFinite w = true ↔ w.toNat / 2 ^ 23 % 256 ≠ 255 := by
  rw [← toNat_field, isFinite, bne_iff_ne, ne_eq, ← BitVec.toNat_inj]
  rfl

theorem unpack_sig_lt (w : Word) : (unpack w).sig < 2 ^ 24 := by
  have hfrac := (frac w).isLt
  by_cases h : field w = 0
  · rw [unpack_of_field_zero h]
    dsimp only
    omega
  · rw [unpack_of_field_ne_zero h]
    dsimp only
    omega

theorem unpack_exp_ge (w : Word) : -126 ≤ (unpack w).exp := by
  by_cases h : field w = 0
  · rw [unpack_of_field_zero h]
  · rw [unpack_of_field_ne_zero h]
    have hpos : (field w).toNat ≠ 0 := toNat_field w ▸ mt field_eq_zero_iff.mpr h
    dsimp only
    omega

theorem unpack_exp_le (hw : isFinite w = true) : (unpack w).exp ≤ 127 := by
  by_cases h : field w = 0
  · rw [unpack_of_field_zero h]
    dsimp only
    omega
  · rw [unpack_of_field_ne_zero h, toNat_field]
    have hfin := isFinite_iff.mp hw
    dsimp only
    omega

/-- A significand without the implicit one stands at the least exponent (R61). -/
theorem unpack_exp_eq_or_le_sig (w : Word) : (unpack w).exp = -126 ∨ 2 ^ 23 ≤ (unpack w).sig := by
  by_cases h : field w = 0
  · exact .inl (by rw [unpack_of_field_zero h])
  · exact .inr (by rw [unpack_of_field_ne_zero h]; exact Nat.le_add_right _ _)

/-- Settles O19: each kind of exponent field has its equation, and in the second the implicit one is added above the
fraction's 23 bits, which is the rule's OR. -/
theorem unpackGivesSignExponentAndSignificand : Obligations.UnpackGivesSignExponentAndSignificand := by
  intro w hfin
  refine ⟨by rw [sign_unpack, sign_eq], fun hzero => ?_, fun hnz => ?_, unpack_sig_lt w, unpack_exp_ge w,
    unpack_exp_le (isFinite_iff.mpr hfin)⟩
  · rw [unpack_of_field_zero (field_eq_zero_iff.mpr hzero)]
    exact ⟨rfl, toNat_frac w⟩
  · rw [unpack_of_field_ne_zero (mt field_eq_zero_iff.mp hnz)]
    have hor := Nat.two_pow_add_eq_or_of_lt (frac w).isLt 1
    rw [Nat.mul_one] at hor
    exact ⟨by rw [toNat_field], hor.trans (by rw [toNat_frac])⟩

/-! ### Exponents through the carry stage -/

/-- A significand of at most `24 + n` bits carries at most `n` times. -/
theorem carryStage_bounds {n : Nat} (hn : n ≤ 24) (hS : S < 2 ^ (24 + n)) (e : Int) :
    e ≤ (carryStage 24 e S).1 ∧ (carryStage 24 e S).1 ≤ e + n ∧ (carryStage 24 e S).2 < 2 ^ 24 := by
  obtain ⟨k, -, hc, hlt, hlow⟩ :=
    carryStage_spec 24 e S (hS.trans_le (Nat.pow_le_pow_right Nat.two_pos (by omega)))
  have hk : k ≤ n := by
    rcases hlow with rfl | hlow
    · exact Nat.zero_le n
    · rw [Nat.shiftRight_eq_div_pow, Nat.le_div_iff_mul_le (Nat.two_pow_pos k), ← Nat.pow_add] at hlow
      have := (Nat.pow_lt_pow_iff_right Nat.one_lt_two).mp (hlow.trans_lt hS)
      omega
  rw [hc]
  exact ⟨by simp, by simpa using hk, hlt⟩

theorem sig_product_lt (a b : Word) : ((unpack a).sig * (unpack b).sig) >>> 23 < 2 ^ (24 + 1) := by
  rw [Nat.shiftRight_eq_div_pow, Nat.div_lt_iff_lt_mul (Nat.two_pow_pos 23)]
  calc (unpack a).sig * (unpack b).sig < 2 ^ 24 * 2 ^ 24 := Nat.mul_lt_mul'' (unpack_sig_lt a) (unpack_sig_lt b)
    _ = 2 ^ (24 + 1) * 2 ^ 23 := by rw [← Nat.pow_add, ← Nat.pow_add]

theorem sig_dividend_lt (a : Word) : (unpack a).sig <<< 23 < 2 ^ (24 + 23) := by
  have := unpack_sig_lt a
  rw [Nat.shiftLeft_eq]
  omega

/-- A divisor with its implicit one gives a quotient that needs no carry. -/
theorem sig_quotient_lt (a : Word) {d : Nat} (hd : 2 ^ 23 ≤ d) : (unpack a).sig <<< 23 / d < 2 ^ (24 + 0) := by
  rw [Nat.div_lt_iff_lt_mul (by omega), Nat.shiftLeft_eq]
  exact Nat.mul_lt_mul_of_lt_of_le (unpack_sig_lt a) hd (by omega)

theorem sig_sum_lt (a b : Word) (d : Nat) : (unpack a).sig + (unpack b).sig >>> d < 2 ^ (24 + 1) := by
  have ha := unpack_sig_lt a
  have hb := (Nat.shiftRight_le (unpack b).sig d).trans_lt (unpack_sig_lt b)
  omega

/-- Settles O22: a product and a sum have at most 25 bits, so they carry at most once (`carryStage_bounds`). A quotient
carries only when the divisor has no implicit one; the divisor's exponent is then -126, far below the bound. -/
theorem exponentsStayInRange : Obligations.ExponentsStayInRange := by
  intro a b hfa hfb
  have hage := unpack_exp_ge a
  have hale := unpack_exp_le hfa
  have hbge := unpack_exp_ge b
  have hble := unpack_exp_le hfb
  refine ⟨?_, ?_, ?_⟩
  · rintro e S he rfl
    obtain ⟨hle, hup, hlt⟩ := carryStage_bounds (by omega) (sig_product_lt a b) e
    exact ⟨by omega, by omega, hle, by omega, hlt⟩
  · rintro e S he rfl -
    rcases unpack_exp_eq_or_le_sig b with hexp | hsig
    · obtain ⟨hle, hup, hlt⟩ :=
        carryStage_bounds (by omega) ((Nat.div_le_self _ (unpack b).sig).trans_lt (sig_dividend_lt a)) e
      exact ⟨by omega, by omega, hle, by omega, hlt⟩
    · obtain ⟨hle, hup, hlt⟩ := carryStage_bounds (by omega) (sig_quotient_lt a hsig) e
      exact ⟨by omega, by omega, hle, by omega, hlt⟩
  · intro d e S he hS
    obtain ⟨-, hup, hlt⟩ := carryStage_bounds (by omega) (hS.trans_lt (sig_sum_lt a b d)) e
    exact ⟨by omega, by omega, hlt⟩

/-! ### The NaN handler -/

@[simp] theorem field_negWord (a : Word) : field (negWord a) = field a := by
  rw [field, negWord, BitVec.extractLsb'_xor]
  exact BitVec.xor_zero

@[simp] theorem frac_negWord (a : Word) : frac (negWord a) = frac a := by
  rw [frac, negWord, BitVec.extractLsb'_xor]
  exact BitVec.xor_zero

@[simp] theorem isNaN_negWord (a : Word) : isNaN (negWord a) = isNaN a := by
  rw [isNaN, field_negWord, frac_negWord, isNaN]

theorem eitherNaN_iff : eitherNaN a b = true ↔ isNaN a = true ∨ isNaN b = true :=
  Bool.or_eq_true_iff

theorem addWord_of_eitherNaN (h : eitherNaN a b = true) : addWord a b = Config.nanSentinel :=
  if_pos h

theorem mulWord_of_eitherNaN (h : eitherNaN a b = true) : mulWord a b = Config.nanSentinel :=
  if_pos h

theorem divWord_of_eitherNaN (h : eitherNaN a b = true) : divWord a b = Config.nanSentinel :=
  if_pos h

/-- Settles O23: each operation tests for a NaN first, and SUB's negated operand is a NaN when the operand is
(`isNaN_negWord`). -/
theorem arithmeticPropagatesNaN : Obligations.ArithmeticPropagatesNaN := by
  intro a b s h
  have hab : eitherNaN a b = true := eitherNaN_iff.mpr h
  have hneg : eitherNaN a (negWord b) = true := eitherNaN_iff.mpr (by rwa [isNaN_negWord])
  rw [exec_add, exec_sub, exec_mul, exec_div, addWord_of_eitherNaN hab, addWord_of_eitherNaN hneg,
    mulWord_of_eitherNaN hab, divWord_of_eitherNaN hab]
  exact ⟨rfl, rfl, rfl, rfl⟩

end Sys2Proof.Machine
end

section
/-! PROOF. O20, O21: the normaliser in closed form (42_arith_common.md R65 to R70). The carry stage shifts right as many
places as the highest set bit, `Nat.log2 S`, is above bit 23. If the exponent is then below -126, the shifts of the two
right-shifting stages add up to its distance from -126 before them, and nothing is left to cancel; otherwise the
cancellation stage shifts left until bit 23 is set or exponent -126 is reached. -/

namespace Sys2Proof.Machine

variable {e : Int} {S : Nat}

/-! ### The highest set bit under shifts -/

theorem log2_shiftRight (S k : Nat) : (S >>> k).log2 = S.log2 - k := by
  rw [Nat.shiftRight_eq_div_pow, Nat.log2_eq_log_two, Nat.log2_eq_log_two, Nat.log_div_base_pow]

theorem log2_shiftLeft (h0 : S ≠ 0) (k : Nat) : (S <<< k).log2 = S.log2 + k := by
  induction k with
  | zero => rfl
  | succ k ih => rw [Nat.shiftLeft_succ, Nat.log2_two_mul (mt Nat.shiftLeft_eq_zero_iff.mp h0), ih, Nat.add_assoc]

theorem shiftRight_ne_zero (h0 : S ≠ 0) {k : Nat} (hk : k ≤ S.log2) : S >>> k ≠ 0 := by
  rw [Nat.shiftRight_eq_div_pow]
  exact (Nat.div_pos ((Nat.le_log2 h0).mp hk) (Nat.two_pow_pos k)).ne'

/-! ### Each stage as one shift -/

theorem carryStage_eq (h0 : S ≠ 0) (hS : S < 2 ^ 48) (e : Int) :
    carryStage 24 e S = (e + (S.log2 - 23 : Nat), S >>> (S.log2 - 23)) := by
  obtain ⟨k, -, hc, hlt, hlow⟩ := carryStage_spec 24 e S hS
  have hk : k = S.log2 - 23 := by
    rcases hlow with rfl | hlow
    · have := (Nat.log2_lt h0).mpr hlt
      omega
    · have hlog := (Nat.log2_eq_iff (by omega)).mpr ⟨hlow, hlt⟩
      rw [log2_shiftRight] at hlog
      omega
  rw [hc, hk]

/-- A shift of 25 places or more, which the underflow stage answers outright, leaves nothing of a significand below
2^24 anyway. -/
theorem underflowStage_of_lt (he : e < -126) (hS : S < 2 ^ 24) :
    underflowStage e S = (-126, S >>> (-126 - e).toNat) := by
  rw [underflowStage, if_pos he]
  dsimp only
  split_ifs with h25
  · rw [Nat.shiftRight_eq_zero _ _ (hS.trans_le (Nat.pow_le_pow_right Nat.two_pos (by omega)))]
  · rfl

theorem cancelStage_at_least_exponent (n S : Nat) : cancelStage n (-126) S = (-126, S) := by
  cases n with
  | zero => rfl
  | succ n => exact if_neg (fun h => absurd h.2 (lt_irrefl _))

/-- The cancellation stage shifts left as many places as the highest set bit is below bit 23, or as many as the exponent
is above -126 when these are fewer. -/
theorem cancelStage_eq (h0 : S ≠ 0) (hS : S < 2 ^ 24) (he : -126 ≤ e) {k : Nat}
    (hk : k = min (23 - S.log2) (e + 126).toNat) : cancelStage 23 e S = (e - k, S <<< k) := by
  obtain ⟨j, hj, hc, hlt, hlow, hstop⟩ := cancelStage_spec 23 e S hS he
  have hne : S <<< j ≠ 0 := mt Nat.shiftLeft_eq_zero_iff.mp h0
  have hupper := (Nat.log2_lt hne).mpr hlt
  rw [log2_shiftLeft h0] at hupper
  have hreach : j < 23 → 23 ≤ S.log2 + j ∨ e - j = -126 := by
    refine fun h => (hstop h).imp_left fun hbit => ?_
    rw [← log2_shiftLeft h0, Nat.le_log2 hne]
    exact Nat.ge_two_pow_of_testBit hbit
  have hjk : j = k := by omega
  rw [hc, hjk]

/-! ### Packing, by where the highest set bit is -/

theorem packStage_of_overflow (s : Bool) (S : Nat) (he : 127 < e) : packStage s e S = signedInf s :=
  if_pos he

theorem packStage_of_bit_23 (s : Bool) (he : e ≤ 127) (hlo : 2 ^ 23 ≤ S) (hhi : S < 2 ^ 24) :
    packStage s e S = pack s (BitVec.ofInt 8 (e + 127)) (BitVec.ofNat 23 S) := by
  have hbit : S.testBit 23 = true :=
    (Bool.not_eq_false _).mp fun h => Nat.not_lt.mpr hlo ((testBit_23_eq_false_iff hhi).mp h)
  rw [packStage, if_neg (Int.not_lt.mpr he), if_pos hbit, bias]

theorem packStage_of_lt (s : Bool) (hS : S < 2 ^ 23) : packStage s (-126) S = pack s 0 (BitVec.ofNat 23 S) := by
  rw [packStage, if_neg (by omega), Nat.testBit_eq_false_of_lt hS]
  rfl

/-! ### The normaliser, by the exponent after the carry stage -/

theorem shiftRight_to_bit_23_lt (h0 : S ≠ 0) : S >>> (S.log2 - 23) < 2 ^ 24 := by
  rw [← Nat.log2_lt (shiftRight_ne_zero h0 (Nat.sub_le _ _)), log2_shiftRight]
  omega

/-- Below exponent -126 only right shifts happen, and their lengths add up. -/
theorem normpack_of_underflow (s : Bool) (h0 : S ≠ 0) (hS : S < 2 ^ 48) (he : e + (S.log2 - 23 : Nat) < -126) :
    normpack s e S = pack s 0 (BitVec.ofNat 23 (S >>> (-126 - e).toNat)) := by
  have hshift : S >>> (S.log2 - 23) >>> (-126 - (e + (S.log2 - 23 : Nat))).toNat = S >>> (-126 - e).toNat := by
    rw [← Nat.shiftRight_add]
    congr 1
    omega
  rw [normpack, if_neg h0, carryStage_eq h0 hS]
  dsimp only
  rw [underflowStage_of_lt he (shiftRight_to_bit_23_lt h0), hshift]
  dsimp only
  split_ifs with hz
  · rw [hz]
    rfl
  · have hlt : S >>> (-126 - e).toNat < 2 ^ 23 := by
      rw [← Nat.log2_lt hz, log2_shiftRight]
      omega
    rw [cancelStage_at_least_exponent, packStage_of_lt s hlt]

/-- From exponent -126 up the carry stage's right shift is followed by the cancellation stage's left shift; one of the
two is by zero places. -/
theorem normpack_of_no_underflow (s : Bool) (h0 : S ≠ 0) (hS : S < 2 ^ 48) (he : -126 ≤ e + (S.log2 - 23 : Nat))
    {k : Nat} (hk : k = min (23 - S.log2) (e + 126).toNat) :
    normpack s e S = packStage s (e + (S.log2 - 23 : Nat) - k) (S >>> (S.log2 - 23) <<< k) := by
  have hne : S >>> (S.log2 - 23) ≠ 0 := shiftRight_ne_zero h0 (Nat.sub_le _ _)
  have hcancel := cancelStage_eq hne (shiftRight_to_bit_23_lt h0) he (k := k) (by rw [log2_shiftRight]; omega)
  rw [normpack, if_neg h0, carryStage_eq h0 hS]
  dsimp only
  rw [(underflowStage_spec _ _).2.2 he, if_neg hne, hcancel]

/-! ### The closed form's two ranges -/

/-- The two shifts to bit 23, of which one is by zero places, are one division. -/
theorem shift_to_bit_23_eq_div (S : Nat) : S >>> (S.log2 - 23) <<< (23 - S.log2) = S * 2 ^ 23 / 2 ^ S.log2 := by
  rw [Nat.shiftRight_eq_div_pow, Nat.shiftLeft_eq]
  rcases le_total 23 S.log2 with h | h
  · rw [Nat.sub_eq_zero_of_le h, Nat.pow_zero, Nat.mul_one, ← Nat.mul_div_mul_right _ _ (Nat.two_pow_pos 23),
      Nat.pow_sub_mul_pow 2 h]
  · rw [Nat.sub_eq_zero_of_le h, Nat.pow_zero, Nat.div_one, ← Nat.pow_sub_mul_pow 2 h, ← Nat.mul_assoc,
      Nat.mul_div_cancel _ (Nat.two_pow_pos _)]

theorem div_to_bit_23_bounds (h0 : S ≠ 0) :
    2 ^ 23 ≤ S * 2 ^ 23 / 2 ^ S.log2 ∧ S * 2 ^ 23 / 2 ^ S.log2 < 2 ^ 24 := by
  have hne : S >>> (S.log2 - 23) ≠ 0 := shiftRight_ne_zero h0 (Nat.sub_le _ _)
  rw [← shift_to_bit_23_eq_div, ← Nat.log2_eq_iff (mt Nat.shiftLeft_eq_zero_iff.mp hne), log2_shiftLeft hne,
    log2_shiftRight]
  omega

theorem normpack_of_normal (s : Bool) (h0 : S ≠ 0) (hS : S < 2 ^ 48) (hE : -126 ≤ e + S.log2 - 23) :
    normpack s e S = packStage s (e + S.log2 - 23) (S * 2 ^ 23 / 2 ^ S.log2) := by
  have hexp : e + (S.log2 - 23 : Nat) - (23 - S.log2 : Nat) = e + S.log2 - 23 := by omega
  rw [normpack_of_no_underflow s h0 hS (by omega) (k := 23 - S.log2) (by omega), hexp, shift_to_bit_23_eq_div]

theorem normpack_of_subnormal (s : Bool) (h0 : S ≠ 0) (hS : S < 2 ^ 48) (hE : e + S.log2 - 23 < -126) :
    normpack s e S = pack s 0 (BitVec.ofNat 23 (S * 2 ^ (e + 126).toNat / 2 ^ (-126 - e).toNat)) := by
  by_cases he : e < -126
  · have hleft : (e + 126).toNat = 0 := by omega
    rw [normpack_of_underflow s h0 hS (by omega), hleft, Nat.pow_zero, Nat.mul_one, Nat.shiftRight_eq_div_pow]
  · have hright : (-126 - e).toNat = 0 := by omega
    have hcarry : S.log2 - 23 = 0 := by omega
    have hexp : e - ((e + 126).toNat : Int) = -126 := by omega
    have hlt : S <<< (e + 126).toNat < 2 ^ 23 := by
      rw [← Nat.log2_lt (mt Nat.shiftLeft_eq_zero_iff.mp h0), log2_shiftLeft h0]
      omega
    rw [normpack_of_no_underflow s h0 hS (by omega) (k := (e + 126).toNat) (by omega), hcarry, Nat.cast_zero, add_zero,
      hexp, Nat.shiftRight_zero, packStage_of_lt s hlt, hright, Nat.pow_zero, Nat.div_one, Nat.shiftLeft_eq]

/-- Settles O20: a zero significand is tested first; otherwise the exponent of the highest set bit is from -126 up
(`normpack_of_normal`), where the packer tells overflow from a significand with bit 23 set, or below
(`normpack_of_subnormal`). -/
theorem normaliserHasAClosedForm : Obligations.NormaliserHasAClosedForm := by
  intro s e S hS
  by_cases h0 : S = 0
  · rw [truncated, if_pos h0]
    exact if_pos h0
  · rw [truncated, if_neg h0]
    dsimp only
    obtain ⟨hlo, hhi⟩ := div_to_bit_23_bounds h0
    split_ifs with hover hnormal
    · exact (normpack_of_normal s h0 hS (by omega)).trans (packStage_of_overflow s _ hover)
    · exact (normpack_of_normal s h0 hS hnormal).trans (packStage_of_bit_23 s (Int.not_lt.mp hover) hlo hhi)
    · exact normpack_of_subnormal s h0 hS (Int.not_le.mp hnormal)

/-! ### No NaN -/

theorem isNaN_pack_of_field_ne (s : Bool) {f : BitVec 8} (m : BitVec 23) (hf : f ≠ 0xFF) :
    isNaN (pack s f m) = false :=
  Bool.eq_false_iff.mpr fun h => hf ((field_pack s f m).symm.trans (isNaN_iff.mp h).1)

theorem isNaN_pack_zero_frac (s : Bool) (f : BitVec 8) : isNaN (pack s f 0) = false :=
  Bool.eq_false_iff.mpr fun h => (isNaN_iff.mp h).2 (frac_pack s f 0)

/-- A normal exponent is never packed into field 255, the field of the NaNs. -/
theorem biased_ne_255 (hlo : -126 ≤ e) (hhi : e ≤ 127) : BitVec.ofInt 8 (e + 127) ≠ 0xFF := by
  obtain ⟨n, hn⟩ := Int.eq_ofNat_of_zero_le (a := e + 127) (by omega)
  rw [hn, BitVec.ofInt_natCast, ne_eq, ← BitVec.toNat_inj, BitVec.toNat_ofNat]
  show n % 256 ≠ 255
  omega

theorem isNaN_truncated (s : Bool) (e : Int) (S : Nat) : isNaN (truncated s e S) = false := by
  rw [truncated]
  dsimp only
  split_ifs with h0 hover hnormal
  · exact isNaN_pack_zero_frac s 0
  · exact isNaN_pack_zero_frac s 0xFF
  · exact isNaN_pack_of_field_ne s _ (biased_ne_255 hnormal (Int.not_lt.mp hover))
  · exact isNaN_pack_of_field_ne s _ (by decide)

/-- Settles O21: no branch of the closed form is a NaN (`isNaN_truncated`). -/
theorem normaliserReturnsNoNaN : Obligations.NormaliserReturnsNoNaN :=
  fun s e S hS => (congrArg isNaN (normaliserHasAClosedForm s e S hS)).trans (isNaN_truncated s e S)

end Sys2Proof.Machine
end

section
/-! PROOF. O30: negation (43_add_sub_neg.md R71). NEG flips the first of a word's three parts, the sign, and keeps the
other two. With this come the three classes by which the adder tells its operands apart: NaN, infinite and finite. -/

namespace Sys2Proof.Machine

variable {w a b : Word}

/-! ### NEG, part by part -/

@[simp] theorem sign_negWord (a : Word) : sign (negWord a) = !sign a := by
  rw [sign, negWord, BitVec.getLsbD_xor]
  exact Bool.xor_true _

@[simp] theorem negWord_negWord (a : Word) : negWord (negWord a) = a :=
  word_ext _ (by simp) (by simp) (by simp)

/-- NEG over natural numbers: bit 31 is set exactly when it was not. -/
theorem toNat_negWord (a : Word) :
    (negWord a).toNat = (if 2 ^ 31 ≤ a.toNat then 0 else 2 ^ 31) + a.toNat % 2 ^ 31 := by
  have h := a.isLt
  rw [toNat_eq_parts, sign_negWord, field_negWord, frac_negWord, sign_eq, toNat_field, toNat_frac]
  by_cases h31 : 2 ^ 31 ≤ a.toNat
  · simp only [h31, decide_true, Bool.not_true, Bool.toNat_false, if_true]
    omega
  · simp only [h31, decide_false, Bool.not_false, Bool.toNat_true, if_false]
    omega

/-- Settles O30: the value is `toNat_negWord`, and the two other parts, which make a NaN, are kept
(`isNaN_negWord`). -/
theorem negFlipsTheSignBit : Obligations.NegFlipsTheSignBit := by
  intro a b s
  refine ⟨decode_eq_ok_iff.mpr rfl, ?_, negWord a, rfl, isNaN_negWord a, ?_⟩
  · rw [exec_neg, ← toNat_negWord, BitVec.ofNat_toNat, BitVec.setWidth_eq]
    rfl
  · rw [exec_neg, negWord_negWord]
    rfl

/-! ### The three classes of an operand -/

theorem isFinite_iff_field : isFinite w = true ↔ field w ≠ 0xFF := by
  simp [isFinite]

theorem isInf_iff : isInf w = true ↔ field w = 0xFF ∧ frac w = 0 := by
  have hpos : posInf = pack false 0xFF 0 := by decide
  have hneg : negInf = pack true 0xFF 0 := by decide
  rw [isInf, Bool.or_eq_true, beq_iff_eq, beq_iff_eq, hpos, hneg]
  constructor
  · rintro (rfl | rfl) <;> simp
  · rintro ⟨hfield, hfrac⟩
    rw [← pack_parts w, hfield, hfrac]
    cases sign w
    · exact .inl rfl
    · exact .inr rfl

theorem isZero_iff : isZero w = true ↔ field w = 0 ∧ frac w = 0 := by
  rw [isZero, beq_iff_eq, ← BitVec.toNat_inj, BitVec.extractLsb'_toNat, field_eq_zero_iff, ← BitVec.toNat_inj,
    toNat_frac]
  simp only [BitVec.ofNat_eq_ofNat, BitVec.toNat_zero, Nat.shiftRight_zero]
  omega

/-- Every word is a NaN, an infinity or finite. -/
theorem word_class_cases (w : Word) : isNaN w = true ∨ isInf w = true ∨ isFinite w = true := by
  rw [isNaN_iff, isInf_iff, isFinite_iff_field]
  tauto

theorem isNaN_of_isFinite (h : isFinite w = true) : isNaN w = false :=
  Bool.eq_false_iff.mpr fun hn => isFinite_iff_field.mp h (isNaN_iff.mp hn).1

theorem isInf_of_isFinite (h : isFinite w = true) : isInf w = false :=
  Bool.eq_false_iff.mpr fun hi => isFinite_iff_field.mp h (isInf_iff.mp hi).1

theorem isNaN_of_isInf (h : isInf w = true) : isNaN w = false :=
  Bool.eq_false_iff.mpr fun hn => (isNaN_iff.mp hn).2 (isInf_iff.mp h).2

theorem isFinite_of_isZero (h : isZero w = true) : isFinite w = true := by
  rw [isFinite_iff_field, (isZero_iff.mp h).1]
  decide

@[simp] theorem isFinite_negWord (a : Word) : isFinite (negWord a) = isFinite a := by
  rw [isFinite, field_negWord, isFinite]

/-- An infinity is told by its sign. -/
theorem eq_iff_sign_eq_of_isInf (ha : isInf a = true) (hb : isInf b = true) : a = b ↔ sign a = sign b := by
  rw [isInf_iff] at ha hb
  exact ⟨congrArg sign, fun h => word_ext _ h (ha.1.trans hb.1.symm) (ha.2.trans hb.2.symm)⟩

end Sys2Proof.Machine
end

section
/-! PROOF. O24, O25, O27, O28: addition (43_add_sub_neg.md R72 to R74). The 32-bit two's-complement word of an integer
below 2^31 in magnitude keeps its sign and magnitude, so the adder's word is that of the exact signed sum, and the
normaliser's closed form does the rest. A finite word is the truncation of its own unpacked parts, so a sum to which the
small operand adds nothing is the big operand's word. -/

namespace Sys2Proof.Machine

variable {w a b : Word} {s : Bool} {e : Int} {m : Nat} {big small : Unpacked}

/-! ### The adder's word as an integer -/

theorem neg32_eq_neg (w : Word) : neg32 w = -w :=
  (BitVec.neg_eq_not_add w).symm

/-- Step 5 gives the two's-complement word of the signed significand. -/
theorem signedSig_eq_ofInt (s : Bool) (m : Nat) : signedSig s m = BitVec.ofInt 32 (signedInt s m) := by
  cases s
  · exact (BitVec.ofInt_natCast 32 m).symm
  · rw [signedSig, signedInt, if_pos rfl, if_pos rfl, neg32_eq_neg, BitVec.ofInt_neg, BitVec.ofInt_natCast]

/-- Steps 6 to 8 recover sign and magnitude of the sum read as a two's-complement integer. -/
theorem packSum_eq_normpack (e : Int) (w : Word) :
    packSum e w = normpack (decide (w.toInt < 0)) e w.toInt.natAbs := by
  rw [packSum, ← sign_eq_toInt_neg, ← magnitude_eq_natAbs, magnitude]
  cases h : sign w
  · exact if_neg (Bool.eq_false_iff.mp h)
  · exact if_pos h

theorem packSum_ofInt (e : Int) {z : Int} (hlo : -2 ^ 31 ≤ z) (hhi : z < 2 ^ 31) :
    packSum e (BitVec.ofInt 32 z) = truncated (decide (z < 0)) e z.natAbs := by
  rw [packSum_eq_normpack, BitVec.toInt_ofInt_eq_self (by decide) hlo hhi]
  exact normaliserHasAClosedForm _ _ _ (by omega)

theorem natAbs_signedInt (s : Bool) (m : Nat) : (signedInt s m).natAbs = m := by
  cases s <;> simp [signedInt]

/-- The aligned sum needs one bit more than its significands. -/
theorem natAbs_alignedSum_lt (hbig : big.sig < 2 ^ 24) (hsmall : small.sig < 2 ^ 24) :
    (alignedSum big small).natAbs < 2 ^ 25 := by
  have hshift := Nat.div_le_self small.sig (2 ^ (big.exp - small.exp).toNat)
  have hsum := Int.natAbs_add_le (signedInt big.sign big.sig)
    (signedInt small.sign (small.sig / 2 ^ (big.exp - small.exp).toNat))
  rw [natAbs_signedInt, natAbs_signedInt] at hsum
  rw [alignedSum]
  omega

/-! ### The ordered adder, by the gap -/

/-- What the adder presents for an aligned pair: the exact signed sum, truncated. -/
def truncatedSum (big small : Unpacked) : Word :=
  truncated (decide (alignedSum big small < 0)) big.exp (alignedSum big small).natAbs

theorem addOrdered_of_far (w : Word) (h : 24 < big.exp - small.exp) : addOrdered w big small = w :=
  if_pos (by rw [alignLimit]; omega)

theorem addOrdered_of_near (w : Word) (hbig : big.sig < 2 ^ 24) (hsmall : small.sig < 2 ^ 24)
    (h : big.exp - small.exp ≤ 24) : addOrdered w big small = truncatedSum big small := by
  have hbound := natAbs_alignedSum_lt hbig hsmall
  rw [addOrdered, if_neg (by rw [alignLimit]; omega), signedSig_eq_ofInt, signedSig_eq_ofInt, ← BitVec.ofInt_add,
    Nat.shiftRight_eq_div_pow]
  exact packSum_ofInt _ (z := alignedSum big small) (by omega) (by omega)

/-! ### ADD, by the classes of its operands -/

theorem exec_add_of {s : State} (h : addWord a b = w) :
    exec (.add a b) s = .next { s with validOut := true, result := w } :=
  h ▸ rfl

theorem eitherNaN_eq_false (ha : isNaN a = false) (hb : isNaN b = false) : eitherNaN a b = false := by
  rw [eitherNaN, ha, hb]
  rfl

theorem addWord_of_isInf_isInf (ha : isInf a = true) (hb : isInf b = true) :
    addWord a b = if a = b then a else Config.nanSentinel := by
  simp [addWord, eitherNaN_eq_false (isNaN_of_isInf ha) (isNaN_of_isInf hb), ha, hb]

theorem addWord_of_isInf_isFinite (ha : isInf a = true) (hb : isFinite b = true) : addWord a b = a := by
  simp [addWord, eitherNaN_eq_false (isNaN_of_isInf ha) (isNaN_of_isFinite hb), ha, isInf_of_isFinite hb]

theorem addWord_of_isFinite_isInf (ha : isFinite a = true) (hb : isInf b = true) : addWord a b = b := by
  simp [addWord, eitherNaN_eq_false (isNaN_of_isFinite ha) (isNaN_of_isInf hb), isInf_of_isFinite ha, hb]

theorem addWord_of_isFinite (ha : isFinite a = true) (hb : isFinite b = true) : addWord a b = addFinite a b := by
  simp [addWord, eitherNaN_eq_false (isNaN_of_isFinite ha) (isNaN_of_isFinite hb), isInf_of_isFinite ha,
    isInf_of_isFinite hb]

theorem addFinite_of_le (h : (unpack b).exp ≤ (unpack a).exp) : addFinite a b = addOrdered a (unpack a) (unpack b) :=
  if_neg (Int.not_lt.mpr h)

theorem addFinite_of_lt (h : (unpack a).exp < (unpack b).exp) : addFinite a b = addOrdered b (unpack b) (unpack a) :=
  if_pos h

/-- Settles O24: the operands' classes pick the equation of `addWord`, their exponents the order, and the gap tells
`addOrdered_of_far` from `addOrdered_of_near`. -/
theorem addComputesItsRule : Obligations.AddComputesItsRule := by
  intro a b s
  have hsa := unpack_sig_lt a
  have hsb := unpack_sig_lt b
  refine ⟨decode_eq_ok_iff.mpr rfl, fun h => exec_add_of (addWord_of_eitherNaN (eitherNaN_iff.mpr h)),
    fun ha hb => exec_add_of (addWord_of_isInf_isInf ha hb),
    fun ha hb => exec_add_of (addWord_of_isInf_isFinite ha hb),
    fun ha hb => exec_add_of (addWord_of_isFinite_isInf ha hb), fun ha hb hexp => ?_, fun ha hb hexp => ?_⟩
  · have hadd := (addWord_of_isFinite ha hb).trans (addFinite_of_le hexp)
    exact ⟨fun hgap => exec_add_of (hadd.trans (addOrdered_of_far a hgap)),
      fun hgap => exec_add_of (hadd.trans (addOrdered_of_near a hsa hsb hgap))⟩
  · have hadd := (addWord_of_isFinite ha hb).trans (addFinite_of_lt hexp)
    exact ⟨fun hgap => exec_add_of (hadd.trans (addOrdered_of_far b hgap)),
      fun hgap => exec_add_of (hadd.trans (addOrdered_of_near b hsb hsa hgap))⟩

/-! ### Commutativity -/

theorem eitherNaN_comm (a b : Word) : eitherNaN a b = eitherNaN b a :=
  Bool.or_comm _ _

theorem isInf_or_isFinite_of_not_eitherNaN (h : ¬ eitherNaN a b = true) :
    (isInf a = true ∨ isFinite a = true) ∧ (isInf b = true ∨ isFinite b = true) := by
  rw [eitherNaN_iff, not_or] at h
  exact ⟨(word_class_cases a).resolve_left h.1, (word_class_cases b).resolve_left h.2⟩

/-- With equal exponents neither significand is shifted, and which operand is called big makes no difference. -/
theorem addOrdered_comm_of_exp_eq (v w : Word) (h : big.exp = small.exp) :
    addOrdered v big small = addOrdered w small big := by
  simp [addOrdered, h, BitVec.add_comm]

theorem addFinite_comm (a b : Word) : addFinite a b = addFinite b a := by
  rcases lt_trichotomy (unpack a).exp (unpack b).exp with h | h | h
  · rw [addFinite_of_lt h, addFinite_of_le h.le]
  · rw [addFinite_of_le h.ge, addFinite_of_le h.le, addOrdered_comm_of_exp_eq a b h]
  · rw [addFinite_of_le h.le, addFinite_of_lt h]

theorem addWord_comm (a b : Word) : addWord a b = addWord b a := by
  by_cases hn : eitherNaN a b = true
  · rw [addWord_of_eitherNaN hn, addWord_of_eitherNaN (eitherNaN_comm a b ▸ hn)]
  · obtain ⟨ha | ha, hb | hb⟩ := isInf_or_isFinite_of_not_eitherNaN hn
    · rw [addWord_of_isInf_isInf ha hb, addWord_of_isInf_isInf hb ha]
      by_cases hab : a = b
      · rw [hab]
      · rw [if_neg hab, if_neg (Ne.symm hab)]
    · rw [addWord_of_isInf_isFinite ha hb, addWord_of_isFinite_isInf hb ha]
    · rw [addWord_of_isFinite_isInf ha hb, addWord_of_isInf_isFinite hb ha]
    · rw [addWord_of_isFinite ha hb, addWord_of_isFinite hb ha, addFinite_comm]

/-- Settles O25, by `addWord_comm`. -/
theorem addIsCommutative : Obligations.AddIsCommutative :=
  fun a b _ => ⟨addWord a b, rfl, exec_add_of (addWord_comm b a)⟩

/-! ### A sum to which the small operand adds nothing -/

/-- A significand without the implicit one, at the least exponent, is packed as it is. -/
theorem truncated_of_lt_bit_23 (s : Bool) (h : m < 2 ^ 23) : truncated s (-126) m = pack s 0 (BitVec.ofNat 23 m) := by
  by_cases h0 : m = 0
  · rw [h0]
    rfl
  · have hlog := (Nat.log2_lt h0).mpr h
    rw [truncated, if_neg h0]
    dsimp only
    rw [if_neg (by omega), if_neg (by omega)]
    simp

/-- A significand with bit 23 highest, at a normal exponent, is packed as it is. -/
theorem truncated_of_bit_23 (s : Bool) (hlo : 2 ^ 23 ≤ m) (hhi : m < 2 ^ 24) (helo : -126 ≤ e) (hehi : e ≤ 127) :
    truncated s e m = pack s (BitVec.ofInt 8 (e + 127)) (BitVec.ofNat 23 m) := by
  have h0 : m ≠ 0 := by omega
  have hlog : m.log2 = 23 := (Nat.log2_eq_iff h0).mpr ⟨hlo, hhi⟩
  have hexp : e + (23 : Nat) - 23 = e := by omega
  rw [truncated, if_neg h0, hlog]
  dsimp only
  rw [hexp, if_neg (Int.not_lt.mpr hehi), if_pos helo, Nat.mul_div_cancel _ (Nat.two_pow_pos 23)]

/-- A finite word is the truncation of its own sign, exponent and significand. -/
theorem truncated_unpack (hw : isFinite w = true) : truncated (sign w) (unpack w).exp (unpack w).sig = w := by
  have hfrac := (frac w).isLt
  have hlt := unpack_sig_lt w
  have hge := unpack_exp_ge w
  have hle := unpack_exp_le hw
  by_cases h : field w = 0
  · rw [unpack_of_field_zero h, truncated_of_lt_bit_23 _ hfrac, ← h, BitVec.ofNat_toNat, BitVec.setWidth_eq,
      pack_parts]
  · rw [unpack_of_field_ne_zero h] at hlt hge hle ⊢
    dsimp only at hlt hge hle ⊢
    have hm : BitVec.ofNat 23 (2 ^ 23 + (frac w).toNat) = frac w := by
      apply BitVec.eq_of_toNat_eq
      rw [BitVec.toNat_ofNat, Nat.add_mod_left, Nat.mod_eq_of_lt hfrac]
    rw [truncated_of_bit_23 _ (Nat.le_add_right _ _) hlt hge hle, hm, Int.sub_add_cancel, BitVec.ofInt_natCast,
      BitVec.ofNat_toNat, BitVec.setWidth_eq, pack_parts]

theorem signedInt_neg_iff (h0 : m ≠ 0) : signedInt s m < 0 ↔ s = true := by
  cases s
  · simp [signedInt]
  · simp only [signedInt, if_true, iff_true]
    omega

/-- Shifted out, the small operand leaves the big one's word, unless that is a zero, whose sign would be lost. -/
theorem truncatedSum_of_shifted_out (hw : isFinite w = true) (h0 : (unpack w).sig ≠ 0)
    (hout : small.sig / 2 ^ ((unpack w).exp - small.exp).toNat = 0) : truncatedSum (unpack w) small = w := by
  have hsum : alignedSum (unpack w) small = signedInt (sign w) (unpack w).sig := by
    rw [alignedSum, hout, sign_unpack]
    cases small.sign <;> exact add_zero _
  have hsign : decide (signedInt (sign w) (unpack w).sig < 0) = sign w := by
    cases hs : sign w <;> simp [signedInt_neg_iff h0]
  rw [truncatedSum, hsum, natAbs_signedInt, hsign, truncated_unpack hw]

theorem addWord_of_shifted_out (ha : isFinite a = true) (hb : isFinite b = true)
    (hexp : (unpack b).exp ≤ (unpack a).exp) (h0 : (unpack a).sig ≠ 0)
    (hout : (unpack b).sig / 2 ^ ((unpack a).exp - (unpack b).exp).toNat = 0) : addWord a b = a := by
  rw [addWord_of_isFinite ha hb, addFinite_of_le hexp]
  by_cases hgap : (unpack a).exp - (unpack b).exp ≤ 24
  · rw [addOrdered_of_near a (unpack_sig_lt a) (unpack_sig_lt b) hgap, truncatedSum_of_shifted_out ha h0 hout]
  · exact addOrdered_of_far a (Int.not_le.mp hgap)

/-- Settles O27: a significand has 24 bits, so a shift by 24 or more leaves none of them, and the big operand, above the
least exponent, is no zero. -/
theorem addAbsorbsTheSmallOperand : Obligations.AddAbsorbsTheSmallOperand := by
  intro a b s ha hb hgap
  have hbge := unpack_exp_ge b
  have h0 : (unpack a).sig ≠ 0 := by
    have := unpack_exp_eq_or_le_sig a
    omega
  have hout : (unpack b).sig / 2 ^ ((unpack a).exp - (unpack b).exp).toNat = 0 :=
    Nat.div_eq_of_lt ((unpack_sig_lt b).trans_le (Nat.pow_le_pow_right Nat.two_pos (by omega)))
  have hadd : addWord a b = a := addWord_of_shifted_out ha hb (by omega) h0 hout
  exact ⟨exec_add_of hadd, exec_add_of ((addWord_comm b a).trans hadd)⟩

/-! ### When a sum is a NaN -/

theorem isNaN_addOrdered (hw : isNaN w = false) (hbig : big.sig < 2 ^ 24) (hsmall : small.sig < 2 ^ 24) :
    isNaN (addOrdered w big small) = false := by
  by_cases hgap : big.exp - small.exp ≤ 24
  · rw [addOrdered_of_near w hbig hsmall hgap]
    exact isNaN_truncated _ _ _
  · rwa [addOrdered_of_far w (Int.not_le.mp hgap)]

theorem isNaN_addFinite (ha : isFinite a = true) (hb : isFinite b = true) : isNaN (addFinite a b) = false := by
  rcases lt_or_ge (unpack a).exp (unpack b).exp with h | h
  · rw [addFinite_of_lt h]
    exact isNaN_addOrdered (isNaN_of_isFinite hb) (unpack_sig_lt b) (unpack_sig_lt a)
  · rw [addFinite_of_le h]
    exact isNaN_addOrdered (isNaN_of_isFinite ha) (unpack_sig_lt a) (unpack_sig_lt b)

theorem isNaN_addWord_of_isInf (ha : isInf a = true) (hb : isInf b = true) :
    isNaN (addWord a b) = true ↔ sign a ≠ sign b := by
  rw [addWord_of_isInf_isInf ha hb, ne_eq, ← eq_iff_sign_eq_of_isInf ha hb]
  split_ifs with h <;> simp [h, isNaN_of_isInf hb]

theorem isNaN_addWord_iff (a b : Word) :
    isNaN (addWord a b) = true ↔
      isNaN a = true ∨ isNaN b = true ∨ (isInf a = true ∧ isInf b = true ∧ sign a ≠ sign b) := by
  by_cases hn : eitherNaN a b = true
  · rw [addWord_of_eitherNaN hn]
    exact iff_of_true isNaN_nanSentinel (or_assoc.mp (.inl (eitherNaN_iff.mp hn)))
  · obtain ⟨ha | ha, hb | hb⟩ := isInf_or_isFinite_of_not_eitherNaN hn
    · simp [isNaN_addWord_of_isInf ha hb, isNaN_of_isInf, ha, hb]
    · simp [addWord_of_isInf_isFinite ha hb, isNaN_of_isInf ha, isNaN_of_isFinite hb, isInf_of_isFinite hb]
    · simp [addWord_of_isFinite_isInf ha hb, isNaN_of_isFinite ha, isNaN_of_isInf hb, isInf_of_isFinite ha]
    · simp [addWord_of_isFinite ha hb, isNaN_addFinite ha hb, isNaN_of_isFinite, isInf_of_isFinite, ha, hb]

/-- Settles O28, by `isNaN_addWord_iff`. -/
theorem addIsNaNOnlyWhereTheRuleSays : Obligations.AddIsNaNOnlyWhereTheRuleSays :=
  fun a b _ => ⟨addWord a b, rfl, isNaN_addWord_iff a b⟩

end Sys2Proof.Machine
end

section
/-! PROOF. O26, O29: sums of zero, and subtraction (43_add_sub_neg.md R75, R77). A sum of opposite significands at one
exponent is zero, which is not negative, so its word is +0. SUB is ADD of the negated word, so each of its corner cases
is one of ADD. -/

namespace Sys2Proof.Machine

variable {w a b x y : Word}

/-! ### Zero sums -/

theorem addWord_of_sum_zero (ha : isFinite a = true) (hb : isFinite b = true) (hexp : (unpack a).exp = (unpack b).exp)
    (hsum : alignedSum (unpack a) (unpack b) = 0) : addWord a b = 0x00000000 := by
  rw [addWord_of_isFinite ha hb, addFinite_of_le hexp.ge,
    addOrdered_of_near a (unpack_sig_lt a) (unpack_sig_lt b) (by omega), truncatedSum, hsum]
  rfl

theorem unpack_negWord (a : Word) : unpack (negWord a) = { unpack a with sign := !sign a } := by
  by_cases h : field a = 0
  · rw [unpack_of_field_zero h, unpack_of_field_zero (by rwa [field_negWord])]
    simp
  · rw [unpack_of_field_ne_zero h, unpack_of_field_ne_zero (by rwa [field_negWord])]
    simp

theorem signedInt_add_not (s : Bool) (m : Nat) : signedInt s m + signedInt (!s) m = 0 := by
  cases s <;> simp [signedInt]

theorem addWord_negWord (hx : isFinite x = true) : addWord x (negWord x) = 0x00000000 := by
  refine addWord_of_sum_zero hx (by rwa [isFinite_negWord]) (by rw [unpack_negWord]) ?_
  simp [alignedSum, unpack_negWord, signedInt_add_not]

theorem unpack_of_isZero (h : isZero w = true) : unpack w = { sign := sign w, exp := -126, sig := 0 } := by
  rw [unpack_of_field_zero (isZero_iff.mp h).1, (isZero_iff.mp h).2]
  rfl

theorem addWord_of_isZero (hx : isZero x = true) (hy : isZero y = true) : addWord x y = 0x00000000 := by
  refine addWord_of_sum_zero (isFinite_of_isZero hx) (isFinite_of_isZero hy) ?_ ?_
  · rw [unpack_of_isZero hx, unpack_of_isZero hy]
  · simp [alignedSum, unpack_of_isZero, hx, hy, signedInt]

/-! ### The identity -/

theorem isZero_iff_sig_eq_zero : isZero w = true ↔ (unpack w).sig = 0 := by
  constructor
  · intro h
    rw [unpack_of_isZero h]
  · intro h
    by_cases hf : field w = 0
    · rw [unpack_of_field_zero hf] at h
      exact isZero_iff.mpr ⟨hf, BitVec.eq_of_toNat_eq h⟩
    · rw [unpack_of_field_ne_zero hf] at h
      dsimp only at h
      omega

theorem eq_zero_or_eq_negZero_of_isZero (h : isZero w = true) : w = 0x00000000 ∨ w = 0x80000000 := by
  obtain ⟨hfield, hfrac⟩ := isZero_iff.mp h
  rw [← pack_parts w, hfield, hfrac]
  cases sign w
  · exact .inl (by decide)
  · exact .inr (by decide)

theorem addWord_posZero (hx : isNaN x = false) (hne : x ≠ 0x80000000) : addWord x 0x00000000 = x := by
  have hz : isZero 0x00000000 = true := by decide
  rcases word_class_cases x with h | h | h
  · exact absurd h (Bool.eq_false_iff.mp hx)
  · exact addWord_of_isInf_isFinite h (isFinite_of_isZero hz)
  · by_cases hx0 : isZero x = true
    · rw [addWord_of_isZero hx0 hz, (eq_zero_or_eq_negZero_of_isZero hx0).resolve_right hne]
    · refine addWord_of_shifted_out h (isFinite_of_isZero hz) ?_ (mt isZero_iff_sig_eq_zero.mpr hx0) ?_
      · rw [unpack_of_isZero hz]
        exact unpack_exp_ge x
      · rw [unpack_of_isZero hz, Nat.zero_div]

/-- Settles O26: opposite words and zeros have a zero sum, and for any other finite operand +0 is shifted out
(`addWord_posZero`). -/
theorem zeroSumsArePositive : Obligations.ZeroSumsArePositive := by
  refine ⟨fun x b s hx => ⟨negWord x, rfl, exec_add_of (addWord_negWord hx)⟩,
    fun x y s hx hy => exec_add_of (addWord_of_isZero hx hy),
    fun x s hx hne => exec_add_of (addWord_posZero hx hne), fun s => ⟨0x00000000, ?_, ?_⟩⟩
  · exact exec_add_of (addWord_of_isZero (by decide) (by decide))
  · rfl

/-! ### SUB -/

theorem exec_sub_of {s : State} (h : addWord a (negWord b) = w) :
    exec (.sub a b) s = .next { s with validOut := true, result := w } :=
  h ▸ rfl

theorem negWord_posInf : negWord posInf = negInf := by decide

theorem negWord_negInf : negWord negInf = posInf := by decide

/-- NEG gives -0 of +0 only. -/
theorem negWord_ne_negZero (hx : isZero x = false) : negWord x ≠ 0x80000000 := by
  intro h
  rw [← negWord_negWord x, h] at hx
  exact absurd hx (by decide)

/-- Settles O29: every clause but the last is ADD's with the negated operand; 1.0 - 0 and 0 - 1.0 have different
answers. -/
theorem subIsAddOfTheNegated : Obligations.SubIsAddOfTheNegated := by
  have hpos : isInf posInf = true := by decide
  have hneg : isInf negInf = true := by decide
  refine ⟨fun a b c s => ⟨decode_eq_ok_iff.mpr rfl, negWord b, addWord a (negWord b), rfl, rfl, rfl⟩,
    fun a b s hb => ?_, fun s => ⟨exec_sub_of ?_, exec_sub_of ?_⟩, fun x s hx => ⟨exec_sub_of ?_, ?_⟩,
    fun x s hx hx0 => exec_sub_of ?_, fun s => ?_, 0x3F800000, 0x00000000, exec_ne_of_answerOf_ne (by decide)⟩
  · exact exec_sub_of (addWord_of_eitherNaN (eitherNaN_iff.mpr (.inr (by rwa [isNaN_negWord]))))
  · rw [negWord_posInf, addWord_of_isInf_isInf hpos hneg, if_neg (by decide)]
  · rw [negWord_negInf, addWord_of_isInf_isInf hpos hpos, if_pos rfl]
  · rw [negWord_posInf, addWord_of_isFinite_isInf hx hneg]
  · exact exec_sub_of (addWord_negWord hx)
  · rw [addWord_comm]
    exact addWord_posZero (by rw [isNaN_negWord, isNaN_of_isFinite hx]) (negWord_ne_negZero hx0)
  · exact exec_sub_of (addWord_of_isZero (by decide) (by decide))

end Sys2Proof.Machine
end

section
/-! PROOF. O31, O32, O33: multiplication (44_mul.md R79 to R81). Each test of MUL and its finite product are symmetric,
so a rule about one operand holds of the other by commutativity. The finite product is the normaliser's closed form at
the product with its low 23 bits dropped; for normal operands the leading one of the product is bit 46 or bit 47. -/

namespace Sys2Proof.Machine

variable {w a b : Word} {e : Int} {m k E : Nat}

/-! ### Commutativity -/

theorem mulFinite_comm (s : Bool) (a b : Word) : mulFinite s a b = mulFinite s b a := by
  rw [mulFinite, mulFinite, Int.add_comm, Nat.mul_comm]

theorem mulWord_comm (a b : Word) : mulWord a b = mulWord b a := by
  rw [mulWord, mulWord, eitherNaN_comm, Bool.xor_comm, Bool.or_comm (isInf a), Bool.or_comm (isZero a)]
  dsimp only
  rw [mulFinite_comm]

theorem exec_mul_of {s : State} (h : mulWord a b = w) :
    exec (.mul a b) s = .next { s with validOut := true, result := w } :=
  h ▸ rfl

/-- Settles O32, by `mulWord_comm`. -/
theorem mulIsCommutative : Obligations.MulIsCommutative :=
  fun a b _ => ⟨mulWord a b, rfl, exec_mul_of (mulWord_comm b a)⟩

/-! ### MUL, by the classes of its operands -/

theorem isZero_of_isInf (h : isInf w = true) : isZero w = false := by
  refine Bool.eq_false_iff.mpr fun hz => absurd (isFinite_of_isZero hz) ?_
  rw [isFinite_iff_field, not_not]
  exact (isInf_iff.mp h).1

theorem mulWord_of_isInf_isZero (ha : isInf a = true) (hb : isZero b = true) : mulWord a b = Config.nanSentinel := by
  simp [mulWord, eitherNaN_eq_false (isNaN_of_isInf ha) (isNaN_of_isFinite (isFinite_of_isZero hb)), ha, hb]

theorem mulWord_of_isInf (ha : isInf a = true) (hb : isNaN b = false) (hz : isZero b = false) :
    mulWord a b = signedInf (sign a ^^ sign b) := by
  simp [mulWord, eitherNaN_eq_false (isNaN_of_isInf ha) hb, ha, isZero_of_isInf ha, hz]

theorem mulWord_of_isFinite (ha : isFinite a = true) (hb : isFinite b = true) :
    mulWord a b = mulFinite (sign a ^^ sign b) a b := by
  simp [mulWord, eitherNaN_eq_false (isNaN_of_isFinite ha) (isNaN_of_isFinite hb), isInf_of_isFinite ha,
    isInf_of_isFinite hb]

theorem signedInf_xor (s t : Bool) : signedInf (s ^^ t) = if s = t then posInf else negInf := by
  cases s <;> cases t <;> decide

theorem mulFinite_eq_truncated (s : Bool) (a b : Word) :
    mulFinite s a b =
      truncated s ((unpack a).exp + (unpack b).exp) ((unpack a).sig * (unpack b).sig / 2 ^ 23) := by
  have hlt := (sig_product_lt a b).trans (show 2 ^ (24 + 1) < 2 ^ 48 by decide)
  rw [mulFinite, ← Nat.shiftRight_eq_div_pow]
  exact normaliserHasAClosedForm _ _ _ hlt

/-- Settles O31: the classes of the operands pick the equation of `mulWord`, in the other order by `mulWord_comm`. -/
theorem mulComputesItsRule : Obligations.MulComputesItsRule := by
  intro a b s
  refine ⟨decode_eq_ok_iff.mpr rfl, fun h => exec_mul_of (mulWord_of_eitherNaN (eitherNaN_iff.mpr h)),
    fun h => exec_mul_of ?_, fun h => exec_mul_of ?_, fun ha hb => exec_mul_of ?_⟩
  · rcases h with ⟨ha, hb⟩ | ⟨ha, hb⟩
    · exact mulWord_of_isInf_isZero ha hb
    · rw [mulWord_comm, mulWord_of_isInf_isZero hb ha]
  · rw [← signedInf_xor]
    rcases h with ⟨ha, hb, hz⟩ | ⟨hb, ha, hz⟩
    · exact mulWord_of_isInf ha hb hz
    · rw [mulWord_comm, mulWord_of_isInf hb ha hz, Bool.xor_comm]
  · exact (mulWord_of_isFinite ha hb).trans (mulFinite_eq_truncated _ a b)

/-! ### A normal product -/

theorem isNorm_iff : isNorm w = true ↔ field w ≠ 0 ∧ isFinite w = true := by
  simp [isNorm, isFinite]

/-- A significand whose leading one is `k` places above bit 23, with a normal exponent once it stands there, keeps its
top 24 bits. -/
theorem truncated_of_leading_bit (s : Bool) (hlo : 2 ^ (23 + k) ≤ m) (hhi : m < 2 ^ (24 + k)) (helo : -126 ≤ e + k)
    (hehi : e + k ≤ 127) : truncated s e m = pack s (BitVec.ofInt 8 (e + k + 127)) (BitVec.ofNat 23 (m / 2 ^ k)) := by
  have h0 : m ≠ 0 := ((Nat.two_pow_pos _).trans_le hlo).ne'
  have hlog : m.log2 = 23 + k := (Nat.log2_eq_iff h0).mpr ⟨hlo, by rwa [Nat.add_right_comm]⟩
  have hexp : e + (23 + k : Nat) - 23 = e + k := by omega
  rw [truncated, if_neg h0, hlog]
  dsimp only
  rw [hexp, if_neg (Int.not_lt.mpr hehi), if_pos helo, Nat.pow_add', Nat.mul_div_mul_right _ _ (Nat.two_pow_pos 23)]

theorem ofNat_23_sub_leading_one (h : 2 ^ 23 ≤ m) : BitVec.ofNat 23 (m - 2 ^ 23) = BitVec.ofNat 23 m := by
  apply BitVec.eq_of_toNat_eq
  rw [BitVec.toNat_ofNat, BitVec.toNat_ofNat, ← Nat.mod_eq_sub_mod h]

/-- The product of normal operands with its leading one at bit `46 + k`, at biased exponent `E` before that one is moved
to bit 46. -/
theorem mulWord_of_isNorm (ha : isNorm a = true) (hb : isNorm b = true)
    (hE : (field a).toNat + (field b).toNat = E + 127)
    (hm : m = (2 ^ 23 + (frac a).toNat) * (2 ^ 23 + (frac b).toNat))
    (hlo : 2 ^ (46 + k) ≤ m) (hhi : m < 2 ^ (47 + k)) (hE1 : 1 ≤ E + k) (hE2 : E + k ≤ 254) :
    mulWord a b =
      pack (sign a != sign b) (BitVec.ofNat 8 (E + k)) (BitVec.ofNat 23 (m / 2 ^ (23 + k) - 2 ^ 23)) := by
  obtain ⟨hfa, hfina⟩ := isNorm_iff.mp ha
  obtain ⟨hfb, hfinb⟩ := isNorm_iff.mp hb
  have hdroplo : 2 ^ (23 + k) ≤ m / 2 ^ 23 := by
    rwa [Nat.le_div_iff_mul_le (Nat.two_pow_pos 23), ← Nat.pow_add, Nat.add_right_comm]
  have hdrophi : m / 2 ^ 23 < 2 ^ (24 + k) := by
    rwa [Nat.div_lt_iff_lt_mul (Nat.two_pow_pos 23), ← Nat.pow_add, Nat.add_right_comm]
  have htop : 2 ^ 23 ≤ m / 2 ^ (23 + k) := by
    rwa [Nat.le_div_iff_mul_le (Nat.two_pow_pos _), ← Nat.pow_add, ← Nat.add_assoc]
  have hbiased : ((field a).toNat : Int) - 127 + ((field b).toNat - 127) + k + 127 = (E + k : Nat) := by omega
  rw [mulWord_of_isFinite hfina hfinb, mulFinite_eq_truncated, unpack_of_field_ne_zero hfa, unpack_of_field_ne_zero hfb,
    ofNat_23_sub_leading_one htop]
  dsimp only
  rw [← hm, truncated_of_leading_bit _ hdroplo hdrophi (by omega) (by omega), hbiased, BitVec.ofInt_natCast,
    Nat.div_div_eq_div_mul, ← Nat.pow_add]

theorem normal_product_bounds (a b : Word) :
    2 ^ 46 ≤ (2 ^ 23 + (frac a).toNat) * (2 ^ 23 + (frac b).toNat) ∧
      (2 ^ 23 + (frac a).toNat) * (2 ^ 23 + (frac b).toNat) < 2 ^ 48 := by
  have ha := (frac a).isLt
  have hb := (frac b).isLt
  exact ⟨Nat.mul_le_mul (n₁ := 2 ^ 23) (m₁ := 2 ^ 23) (Nat.le_add_right _ _) (Nat.le_add_right _ _),
    Nat.mul_lt_mul'' (c := 2 ^ 24) (d := 2 ^ 24) (by omega) (by omega)⟩

/-- Settles O33: the leading one of the product is bit 46 in the first clause and bit 47 in the second. -/
theorem mulOfNormalsKeepsTheTopBits : Obligations.MulOfNormalsKeepsTheTopBits := by
  intro a b s E P ha hb hE hP
  obtain ⟨hlo, hhi⟩ := normal_product_bounds a b
  rw [← hP] at hlo hhi
  exact ⟨fun hlt hE1 hE2 => exec_mul_of (mulWord_of_isNorm (k := 0) ha hb hE hP hlo hlt hE1 hE2),
    fun hge hE2 => exec_mul_of (mulWord_of_isNorm (k := 1) ha hb hE hP hge hhi (by omega) (by omega))⟩

end Sys2Proof.Machine
end

section
/-! PROOF. O34, O35: division (45_div.md R82 to R85). The tests before the finite quotient pick one of four answers by
the classes of the operands. The finite quotient is the normaliser's closed form at the divisor's exponent minus the
dividend's; for normal operands of equal exponent its leading one is bit 23, or bit 22 when the dividend's significand
is the smaller one. -/

namespace Sys2Proof.Machine

variable {w a b : Word} {e : Int} {m k : Nat}

/-! ### DIV, by the classes of its operands -/

theorem exec_div_of {s : State} (h : divWord a b = w) :
    exec (.div a b) s = .next { s with validOut := true, result := w } :=
  h ▸ rfl

theorem divWord_of_isZero (hb : isZero b = true) : divWord a b = Config.nanSentinel := by
  simp [divWord, hb]

theorem divWord_of_isInf_isInf (ha : isInf a = true) (hb : isInf b = true) : divWord a b = Config.nanSentinel := by
  simp [divWord, ha, hb]

theorem divWord_of_isInf_isFinite (ha : isInf a = true) (hb : isFinite b = true) (hz : isZero b = false) :
    divWord a b = signedInf (sign a ^^ sign b) := by
  simp [divWord, eitherNaN_eq_false (isNaN_of_isInf ha) (isNaN_of_isFinite hb), ha, isInf_of_isFinite hb, hz]

theorem divWord_of_isFinite_isInf (ha : isFinite a = true) (hb : isInf b = true) :
    divWord a b = signedZero (sign a ^^ sign b) := by
  simp [divWord, eitherNaN_eq_false (isNaN_of_isFinite ha) (isNaN_of_isInf hb), isInf_of_isFinite ha, hb,
    isZero_of_isInf hb]

theorem divWord_of_isFinite (ha : isFinite a = true) (hb : isFinite b = true) (hz : isZero b = false) :
    divWord a b = divFinite (sign a ^^ sign b) a b := by
  simp [divWord, eitherNaN_eq_false (isNaN_of_isFinite ha) (isNaN_of_isFinite hb), isInf_of_isFinite ha,
    isInf_of_isFinite hb, hz]

theorem signedZero_xor (s t : Bool) : signedZero (s ^^ t) = if s = t then 0x00000000 else 0x80000000 := by
  cases s <;> cases t <;> decide

/-- A quotient is no larger than the widened dividend, which the normaliser's closed form admits. -/
theorem divFinite_eq_truncated (s : Bool) (a b : Word) :
    divFinite s a b =
      truncated s ((unpack b).exp - (unpack a).exp) ((unpack a).sig * 2 ^ 23 / (unpack b).sig) := by
  have hlt := ((Nat.div_le_self _ (unpack b).sig).trans_lt (sig_dividend_lt a)).trans
    (show 2 ^ (24 + 23) < 2 ^ 48 by decide)
  rw [divFinite, ← Nat.shiftLeft_eq]
  exact normaliserHasAClosedForm _ _ _ hlt

/-- Settles O34: the classes of the operands pick the equation of `divWord`. -/
theorem divComputesItsRule : Obligations.DivComputesItsRule := by
  intro a b s
  refine ⟨decode_eq_ok_iff.mpr rfl, fun h => exec_div_of (divWord_of_eitherNaN (eitherNaN_iff.mpr h)),
    fun hz => exec_div_of (divWord_of_isZero hz), fun ha hb => exec_div_of (divWord_of_isInf_isInf ha hb),
    fun ha hb hz => exec_div_of ?_, fun ha hb => exec_div_of ?_, fun ha hb hz => exec_div_of ?_⟩
  · exact (divWord_of_isInf_isFinite ha hb hz).trans (signedInf_xor _ _)
  · exact (divWord_of_isFinite_isInf ha hb).trans (signedZero_xor _ _)
  · exact (divWord_of_isFinite ha hb hz).trans (divFinite_eq_truncated _ a b)

/-! ### A quotient of normal operands with equal exponents -/

/-- A significand whose leading one is `k` places below bit 23, with a normal exponent once it stands there, is shifted
up and keeps all its bits. -/
theorem truncated_of_leading_bit_below (s : Bool) (hlo : 2 ^ 23 ≤ 2 ^ k * m) (hhi : 2 ^ k * m < 2 ^ 24)
    (helo : -126 ≤ e - k) (hehi : e - k ≤ 127) :
    truncated s e m = pack s (BitVec.ofInt 8 (e - k + 127)) (BitVec.ofNat 23 (2 ^ k * m)) := by
  have hshift : m <<< k = 2 ^ k * m := by rw [Nat.shiftLeft_eq, Nat.mul_comm]
  have h0 : m ≠ 0 := by
    rintro rfl
    omega
  have hlog : m.log2 + k = 23 := by
    rw [← log2_shiftLeft h0, hshift]
    exact (Nat.log2_eq_iff (by omega)).mpr ⟨hlo, hhi⟩
  have hexp : e + m.log2 - 23 = e - k := by omega
  have hpow : m * 2 ^ 23 = 2 ^ k * m * 2 ^ m.log2 := by rw [← hlog, Nat.pow_add]; ring
  rw [truncated, if_neg h0]
  dsimp only
  rw [hexp, if_neg (Int.not_lt.mpr hehi), if_pos helo, hpow, Nat.mul_div_cancel _ (Nat.two_pow_pos _)]

theorem isZero_of_isNorm (h : isNorm w = true) : isZero w = false :=
  Bool.eq_false_iff.mpr fun hz => (isNorm_iff.mp h).1 (isZero_iff.mp hz).1

/-- The quotient of normal operands of equal exponent with its leading one `k` places below bit 23. -/
theorem divWord_of_isNorm (ha : isNorm a = true) (hb : isNorm b = true) (hf : field a = field b)
    (hm : m = (2 ^ 23 + (frac a).toNat) * 2 ^ 23 / (2 ^ 23 + (frac b).toNat))
    (hlo : 2 ^ 23 ≤ 2 ^ k * m) (hhi : 2 ^ k * m < 2 ^ 24) (hk : k ≤ 23) :
    divWord a b = pack (sign a != sign b) (BitVec.ofNat 8 (127 - k)) (BitVec.ofNat 23 (2 ^ k * m - 2 ^ 23)) := by
  obtain ⟨hfa, hfina⟩ := isNorm_iff.mp ha
  obtain ⟨hfb, hfinb⟩ := isNorm_iff.mp hb
  have hbiased : (0 : Int) - k + 127 = (127 - k : Nat) := by omega
  rw [divWord_of_isFinite hfina hfinb (isZero_of_isNorm hb), divFinite_eq_truncated, unpack_of_field_ne_zero hfa,
    unpack_of_field_ne_zero hfb, hf, ofNat_23_sub_leading_one hlo]
  dsimp only
  rw [← hm, Int.sub_self, truncated_of_leading_bit_below _ hlo hhi (by omega) (by omega), hbiased,
    BitVec.ofInt_natCast]

/-- R85 (a): neither the carry stage nor the cancellation stage has anything to shift. -/
theorem normal_quotient_bounds_of_le {x y : Nat} (hy : 2 ^ 23 ≤ y) (hx : x < 2 ^ 24) (h : y ≤ x) :
    2 ^ 23 ≤ x * 2 ^ 23 / y ∧ x * 2 ^ 23 / y < 2 ^ 24 := by
  rw [Nat.le_div_iff_mul_le (by omega), Nat.div_lt_iff_lt_mul (by omega)]
  omega

/-- R85 (a): one place short of bit 23, so the cancellation stage shifts once. -/
theorem normal_quotient_bounds_of_lt {x y : Nat} (hx : 2 ^ 23 ≤ x) (hy : y < 2 ^ 24) (h : x < y) :
    2 ^ 22 ≤ x * 2 ^ 23 / y ∧ x * 2 ^ 23 / y < 2 ^ 23 := by
  rw [Nat.le_div_iff_mul_le (by omega), Nat.div_lt_iff_lt_mul (by omega)]
  omega

/-- Settles O35: the leading one of the quotient is bit 23 in the first clause and bit 22 in the second, which the
normaliser shifts up by one place. -/
theorem divOfEqualExponentsIsTheQuotient : Obligations.DivOfEqualExponentsIsTheQuotient := by
  rintro a b s _ _ ha hb hf rfl rfl
  have hfa := (frac a).isLt
  have hfb := (frac b).isLt
  refine ⟨fun h => exec_div_of ?_, fun h => exec_div_of ?_⟩
  · obtain ⟨hlo, hhi⟩ := normal_quotient_bounds_of_le (Nat.le_add_right _ _) (by omega) h
    have hdiv := divWord_of_isNorm (k := 0) ha hb hf rfl (by omega) (by omega) (by omega)
    rwa [Nat.pow_zero, Nat.one_mul] at hdiv
  · obtain ⟨hlo, hhi⟩ := normal_quotient_bounds_of_lt (Nat.le_add_right _ _) (by omega) h
    exact divWord_of_isNorm (k := 1) ha hb hf rfl (by omega) (by omega) (by omega)

end Sys2Proof.Machine
end

section
/-! PROOF. O36: EQ (46_equality.md R86). One equation of `equalWords` for each answer of the rule, and its symmetry. The
statement tells a NaN by bits 30 to 0 as a number: that number exceeds the one of an infinity. -/

namespace Sys2Proof.Machine

variable {w a b : Word}

/-- The exponent field 0xFF above a fraction that is not zero (R95), as one comparison of numbers. -/
theorem isNaN_iff_magnitude : isNaN w = true ↔ 0x7F800000 < w.toNat % 2 ^ 31 := by
  have hfield : field w = 0xFF ↔ w.toNat / 2 ^ 23 % 256 = 255 := by
    rw [← toNat_field, ← BitVec.toNat_inj]
    rfl
  have hfrac : frac w = 0 ↔ w.toNat % 2 ^ 23 = 0 := by
    rw [← toNat_frac, ← BitVec.toNat_inj]
    rfl
  rw [isNaN_iff, ne_eq, hfield, hfrac]
  omega

/-! ### EQ, by its operands -/

theorem equalWords_of_isNaN (h : isNaN a = true ∨ isNaN b = true) : equalWords a b = false :=
  if_pos (eitherNaN_iff.mpr h)

theorem equalWords_self (h : isNaN a = false) : equalWords a a = true := by
  simp [equalWords, h]

/-- No pair of different words is equal: there is no override for the two zeros. -/
theorem equalWords_of_ne (h : a ≠ b) : equalWords a b = false := by
  simp [equalWords, h]

theorem equalWords_comm (a b : Word) : equalWords a b = equalWords b a := by
  rw [equalWords, equalWords, Bool.or_comm, Bool.beq_comm]

theorem exec_eq_of {s : State} {t : Bool} (h : equalWords a b = t) :
    exec (.eq a b) s = .next { s with validOut := true, result := truthWord t } :=
  h ▸ rfl

/-- Settles O36: each clause is an equation of `equalWords`, with the NaNs told by `isNaN_iff_magnitude`. -/
theorem eqComparesRawBits : Obligations.EqComparesRawBits := by
  intro a b s
  refine ⟨decode_eq_ok_iff.mpr rfl, fun hnan => exec_eq_of (equalWords_of_isNaN ?_), ?_,
    fun hne => exec_eq_of (equalWords_of_ne hne), ?_⟩
  · exact hnan.imp isNaN_iff_magnitude.mpr isNaN_iff_magnitude.mpr
  · rintro hle rfl
    exact exec_eq_of (equalWords_self (Bool.eq_false_iff.mpr fun hn => hle.not_gt (isNaN_iff_magnitude.mp hn)))
  · rw [exec_eq, exec_eq, equalWords_comm]

end Sys2Proof.Machine
end

section
/-! PROOF. O37, O38, O39: classification (48_classification.md R94 to R101). The exponent field 0, 0xFF, or neither,
above a fraction that is zero or not: as numbers, bits 30 to 0 at the bounds of the statement; and, since NEG keeps both
parts, classes that the sign does not touch. -/

namespace Sys2Proof.Machine

variable {w : Word} {t : Bool} {p : Prop}

/-! ### The six predicates, by bits 30 to 0 as a number -/

theorem isZero_iff_magnitude : isZero w = true ↔ w.toNat % 2 ^ 31 = 0 := by
  rw [isZero, beq_iff_eq, ← BitVec.toNat_inj, BitVec.extractLsb'_toNat, Nat.shiftRight_zero]
  rfl

theorem field_eq_255_iff : field w = 0xFF ↔ w.toNat / 2 ^ 23 % 256 = 255 := by
  rw [← toNat_field, ← BitVec.toNat_inj]
  rfl

theorem frac_eq_zero_iff : frac w = 0 ↔ w.toNat % 2 ^ 23 = 0 := by
  rw [← toNat_frac, ← BitVec.toNat_inj]
  rfl

theorem isInf_iff_magnitude : isInf w = true ↔ w.toNat % 2 ^ 31 = 0x7F800000 := by
  rw [isInf_iff, field_eq_255_iff, frac_eq_zero_iff]
  omega

theorem isSub_iff : isSub w = true ↔ field w = 0 :=
  beq_iff_eq

theorem isSub_iff_magnitude : isSub w = true ↔ w.toNat % 2 ^ 31 < 0x00800000 := by
  rw [isSub_iff, field_eq_zero_iff]
  omega

theorem isNorm_iff_magnitude :
    isNorm w = true ↔ 0x00800000 ≤ w.toNat % 2 ^ 31 ∧ w.toNat % 2 ^ 31 < 0x7F800000 := by
  rw [isNorm_iff, isFinite_iff, ne_eq, field_eq_zero_iff]
  omega

theorem isNeg_iff : isNeg w = true ↔ 2 ^ 31 ≤ w.toNat := by
  rw [isNeg, sign_eq, decide_eq_true_eq]

/-- A truth value presented is 1 or 0 by the proposition it decides (R38). -/
theorem next_respond_truthWord_of_iff [Decidable p] (h : t = true ↔ p) (s : State) :
    (.next (s.respond (truthWord t)) : Host.Outcome State Fault Refusal) =
      .next { s with validOut := true, result := if p then 1 else 0 } := by
  rw [truthWord, State.respond, if_congr h rfl rfl]

/-- Settles O37: each request word is the encoding of its predicate, and each predicate has its bounds. -/
theorem predicatesFollowTheWordsMagnitude : Obligations.PredicatesFollowTheWordsMagnitude := by
  intro a b s
  exact ⟨decode_eq_ok_iff.mpr rfl, decode_eq_ok_iff.mpr rfl, decode_eq_ok_iff.mpr rfl, decode_eq_ok_iff.mpr rfl,
    decode_eq_ok_iff.mpr rfl, decode_eq_ok_iff.mpr rfl,
    next_respond_truthWord_of_iff isZero_iff_magnitude s, next_respond_truthWord_of_iff isNaN_iff_magnitude s,
    next_respond_truthWord_of_iff isInf_iff_magnitude s, next_respond_truthWord_of_iff isNeg_iff s,
    next_respond_truthWord_of_iff isSub_iff_magnitude s, next_respond_truthWord_of_iff isNorm_iff_magnitude s⟩

/-! ### The four classes -/

theorem toNat_truthWord (t : Bool) : (truthWord t).toNat = t.toNat := by
  cases t <;> rfl

theorem truthWord_not (t : Bool) : truthWord (!t) = 1 - truthWord t := by
  cases t <;> rfl

theorem truthWord_eq_one_iff : truthWord t = 1 ↔ t = true := by
  cases t <;> decide

/-- R101: exactly one of the four class tests is true. -/
theorem sum_of_classes (w : Word) :
    (isSub w).toNat + (isNorm w).toNat + (isInf w).toNat + (isNaN w).toNat = 1 := by
  have hInf : isInf w = (field w == 0xFF && frac w == 0) := by
    rw [Bool.eq_iff_iff, isInf_iff, Bool.and_eq_true, beq_iff_eq, beq_iff_eq]
  rw [hInf, isSub, isNorm, isNaN]
  cases hzero : field w == 0#8
  · cases hones : field w == 255#8
    · simp [bne, hzero, hones]
    · cases hfrac : frac w == 0#23
      · simp [bne, hzero, hones, hfrac]
      · simp [bne, hzero, hones, hfrac]
  · simp [beq_iff_eq.mp hzero]

theorem isSub_of_isZero (h : isZero w = true) : isSub w = true :=
  isSub_iff.mpr (isZero_iff.mp h).1

@[simp] theorem isZero_negWord (w : Word) : isZero (negWord w) = isZero w := by
  rw [Bool.eq_iff_iff, isZero_iff, isZero_iff, field_negWord, frac_negWord]

@[simp] theorem isInf_negWord (w : Word) : isInf (negWord w) = isInf w := by
  rw [Bool.eq_iff_iff, isInf_iff, isInf_iff, field_negWord, frac_negWord]

@[simp] theorem isNeg_negWord (w : Word) : isNeg (negWord w) = !isNeg w :=
  sign_negWord w

@[simp] theorem isSub_negWord (w : Word) : isSub (negWord w) = isSub w := by
  rw [isSub, field_negWord, isSub]

@[simp] theorem isNorm_negWord (w : Word) : isNorm (negWord w) = isNorm w := by
  rw [isNorm, field_negWord, isNorm]

/-- Settles O38: exactly one class test is true (`sum_of_classes`), and NEG, which flips bit 31, keeps every test but
ISNEG. -/
theorem everyWordHasExactlyOneClass : Obligations.EveryWordHasExactlyOneClass := by
  intro a b s
  have hflip : a ^^^ 0x80000000 = negWord a := rfl
  refine ⟨truthWord (isZero a), truthWord (isNaN a), truthWord (isInf a), truthWord (isNeg a), truthWord (isSub a),
    truthWord (isNorm a), rfl, rfl, rfl, rfl, rfl, rfl, ?_, ?_, ?_⟩
  · simp only [toNat_truthWord, sum_of_classes]
  · rw [truthWord_eq_one_iff, truthWord_eq_one_iff]
    exact isSub_of_isZero
  · simp only [hflip, exec_isZero, exec_isNaN, exec_isInf, exec_isNeg, exec_isSub, exec_isNorm, isZero_negWord,
      isNaN_negWord, isInf_negWord, isNeg_negWord, isSub_negWord, isNorm_negWord, truthWord_not]
    exact ⟨rfl, rfl, rfl, rfl, rfl, rfl⟩

/-! ### EXPO -/

theorem exponentWord_of_field_255 (h : field w = 0xFF) : exponentWord w = intSentinel :=
  if_pos h

/-- On a finite word EXPO gives the exponent of `unpack` (R100). -/
theorem exponentWord_of_isFinite (h : isFinite w = true) : exponentWord w = BitVec.ofInt 32 (unpack w).exp := by
  rw [exponentWord, if_neg (isFinite_iff_field.mp h)]
  by_cases h0 : field w = 0
  · rw [if_pos h0, unpack_of_field_zero h0]
    rfl
  · rw [if_neg h0, unpack_of_field_ne_zero h0]
    rfl

/-- Field 0 has the exponent of field 1 (R61). -/
theorem unpack_exp_eq_max (w : Word) : (unpack w).exp = (max 1 (w.toNat / 2 ^ 23 % 256) : Nat) - 127 := by
  by_cases h : field w = 0
  · rw [unpack_of_field_zero h, field_eq_zero_iff.mp h]
    rfl
  · rw [unpack_of_field_ne_zero h, toNat_field]
    have := mt field_eq_zero_iff.mpr h
    dsimp only
    omega

/-- Settles O39: field 255 is the sentinel's, and any other field gives the exponent of `unpack`, which a word holds. -/
theorem expoReturnsTheExponent : Obligations.ExpoReturnsTheExponent := by
  intro a b s
  refine ⟨decode_eq_ok_iff.mpr rfl, fun h255 => ?_, fun hfin => ?_⟩
  · rw [exec_expo, exponentWord_of_field_255 (field_eq_255_iff.mpr h255)]
    rfl
  · rw [← isFinite_iff] at hfin
    have hge := unpack_exp_ge a
    have hle := unpack_exp_le hfin
    rw [exec_expo, exponentWord_of_isFinite hfin, ← unpack_exp_eq_max]
    exact ⟨rfl, BitVec.toInt_ofInt_eq_self (by decide) (by omega) (by omega)⟩

end Sys2Proof.Machine
end

section
/-! PROOF. O43, O42: conversion to an integer (47_conversion.md R88 to R90, R93). For an exponent from 0 to 30 both of
CVTI's shifts are one division, so the result is the signed integer part of the value; below that nothing is left, and
above it the sentinel is the answer. CVTS of a non-zero integer has its highest set bit as the exponent, and its
significand denotes the magnitude, an odd one above 2^24 less one, which CVTI gives back. -/

namespace Sys2Proof.Machine

variable {a w : Word} {u : Unpacked} {n : Nat}

/-! ### The magnitude, by the exponent -/

/-- For an exponent of 0 or more, shifting left or right to exponent 23 is one truncating division (R89, R90). -/
theorem integerPart_of_nonneg (h : 0 ≤ u.exp) : integerPart u = u.sig * 2 ^ u.exp.toNat / 2 ^ 23 := by
  rw [integerPart]
  by_cases hleft : 23 < u.exp
  · have hpow : u.exp.toNat = (u.exp - 23).toNat + 23 := by omega
    rw [if_pos hleft, Nat.shiftLeft_eq, hpow, Nat.pow_add, ← Nat.mul_assoc, Nat.mul_div_cancel _ (Nat.two_pow_pos 23)]
  · have hpow : 23 = (23 - u.exp).toNat + u.exp.toNat := by omega
    rw [if_neg hleft]
    dsimp only
    rw [if_neg (by omega), Nat.shiftRight_eq_div_pow]
    conv_rhs => rw [hpow, Nat.pow_add, Nat.mul_div_mul_right _ _ (Nat.two_pow_pos _)]

theorem integerPart_of_neg (h : u.exp < 0) : integerPart u = 0 := by
  rw [integerPart, if_neg (by omega)]
  exact if_pos (by omega)

theorem integerPart_lt (hsig : u.sig < 2 ^ 24) (hexp : u.exp < 31) : integerPart u < 2 ^ 31 := by
  by_cases h : 0 ≤ u.exp
  · rw [integerPart_of_nonneg h, Nat.div_lt_iff_lt_mul (Nat.two_pow_pos 23)]
    calc u.sig * 2 ^ u.exp.toNat < 2 ^ 24 * 2 ^ u.exp.toNat := Nat.mul_lt_mul_of_pos_right hsig (Nat.two_pow_pos _)
      _ ≤ 2 ^ 24 * 2 ^ 30 := Nat.mul_le_mul_left _ (Nat.pow_le_pow_right Nat.two_pos (by omega))
      _ = 2 ^ 31 * 2 ^ 23 := by rw [← Nat.pow_add, ← Nat.pow_add]
  · rw [integerPart_of_neg (Int.not_le.mp h)]
    exact Nat.two_pow_pos 31

/-! ### CVTI, by the exponent field -/

theorem toInteger_of_not_isFinite (h : isFinite w ≠ true) : toInteger w = intSentinel := by
  have hclass : isNaN w = true ∨ isInf w = true := by
    have := word_class_cases w
    tauto
  rw [toInteger, if_pos (Bool.or_eq_true_iff.mpr hclass)]

theorem toInteger_of_le_exp (hw : isFinite w = true) (h : 31 ≤ (unpack w).exp) : toInteger w = intSentinel := by
  have hz : isZero w = false := by
    refine Bool.eq_false_iff.mpr fun hz => ?_
    rw [unpack_of_isZero hz] at h
    dsimp only at h
    omega
  simp [toInteger, isNaN_of_isFinite hw, isInf_of_isFinite hw, hz, h]

/-- Below exponent 31, the zeros included, the result is the integer part with the word's sign. -/
theorem toInteger_of_exp_lt (hw : isFinite w = true) (h : (unpack w).exp < 31) :
    toInteger w = signedSig (sign w) (integerPart (unpack w)) := by
  by_cases hz : isZero w = true
  · rw [integerPart_of_neg (by rw [unpack_of_isZero hz]; exact Int.negSucc_lt_zero 125)]
    have hzero : signedSig (sign w) 0 = 0x00000000 := by cases sign w <;> rfl
    simp [toInteger, isNaN_of_isFinite hw, isInf_of_isFinite hw, hz, hzero]
  · simp [toInteger, isNaN_of_isFinite hw, isInf_of_isFinite hw, hz, Int.not_le.mpr h, signedSig]

/-- R88: the bound on the exponent field says the same of every word, finite or not. -/
theorem toInteger_of_le_field (h : 158 ≤ (field w).toNat) : toInteger w = intSentinel := by
  by_cases hw : isFinite w = true
  · refine toInteger_of_le_exp hw ?_
    rw [unpack_exp_eq_max, ← toNat_field]
    omega
  · exact toInteger_of_not_isFinite hw

theorem isFinite_of_field_lt (h : (field w).toNat < 158) : isFinite w = true := by
  rw [isFinite_iff, ← toNat_field]
  omega

theorem toInteger_of_field_lt (h : (field w).toNat < 127) : toInteger w = 0x00000000 := by
  have hexp : (unpack w).exp < 0 := by
    rw [unpack_exp_eq_max, ← toNat_field]
    omega
  rw [toInteger_of_exp_lt (isFinite_of_field_lt (by omega)) (by omega), integerPart_of_neg hexp]
  cases sign w <;> rfl

/-- The signed integer part of a value from 1 up to 2^31 in magnitude. -/
theorem toInt_toInteger (hlo : 127 ≤ (field w).toNat) (hhi : (field w).toNat < 158) :
    (toInteger w).toInt =
      signedInt (sign w) ((2 ^ 23 + (frac w).toNat) * 2 ^ ((field w).toNat - 127) / 2 ^ 23) := by
  have h0 : field w ≠ 0 := by
    rw [ne_eq, field_eq_zero_iff, ← toNat_field]
    omega
  have hu := unpack_of_field_ne_zero h0
  have hexp : (unpack w).exp = ((field w).toNat - 127 : Nat) := by
    rw [hu]
    dsimp only
    omega
  have hlt := integerPart_lt (unpack_sig_lt w) (by omega)
  have habs := natAbs_signedInt (sign w) (integerPart (unpack w))
  rw [toInteger_of_exp_lt (isFinite_of_field_lt hhi) (by omega), signedSig_eq_ofInt,
    BitVec.toInt_ofInt_eq_self (by decide) (by omega) (by omega), integerPart_of_nonneg (by omega), hexp,
    Int.toNat_natCast, hu]

theorem exec_cvti_of {b r : Word} {s : State} (h : toInteger a = r) :
    exec (.cvti a b) s = .next { s with validOut := true, result := r } :=
  h ▸ rfl

/-- Settles O43: each range of the exponent field has its equation. -/
theorem cvtiTruncatesTowardZero : Obligations.CvtiTruncatesTowardZero := by
  intro a b s
  simp only [← toNat_field, ← toNat_frac, ← sign_eq]
  exact ⟨decode_eq_ok_iff.mpr rfl, fun h => exec_cvti_of (toInteger_of_le_field h),
    fun h => exec_cvti_of (toInteger_of_field_lt h), fun hlo hhi => ⟨_, rfl, toInt_toInteger hlo hhi⟩⟩

/-! ### CVTI of CVTS -/

/-- CVTI of a word packed with exponent `n`. -/
theorem toInt_toInteger_pack (s : Bool) (hn : n < 31) (m : BitVec 23) :
    (toInteger (pack s (BitVec.ofNat 8 (127 + n)) m)).toInt = signedInt s ((2 ^ 23 + m.toNat) * 2 ^ n / 2 ^ 23) := by
  have hfield : (BitVec.ofNat 8 (127 + n)).toNat = 127 + n := by
    rw [BitVec.toNat_ofNat]
    omega
  have h := toInt_toInteger (w := pack s (BitVec.ofNat 8 (127 + n)) m)
  rw [sign_pack, field_pack, frac_pack, hfield, Nat.add_sub_cancel_left] at h
  exact h (Nat.le_add_right _ _) (by omega)

theorem toInt_roundTrip_of_lt (h0 : a.toInt.natAbs ≠ 0) (h : a.toInt.natAbs < 2 ^ 24) :
    (toInteger (fromSigned a)).toInt = signedInt (decide (a.toInt < 0)) a.toInt.natAbs := by
  have hlog := (Nat.log2_lt h0).mpr h
  obtain ⟨hlo, hhi⟩ := shiftLeft_to_bit_23_bounds h0 h
  rw [fromSigned_of_le h0 (by rw [cvtMax]; omega), fromUnsigned_of_lt h0 h, field_pack, frac_pack,
    toInt_toInteger_pack _ (by omega), implicitOne_add_fraction hlo hhi, shiftLeft_to_bit_23_mul h0 h,
    Nat.mul_div_cancel _ (Nat.two_pow_pos 23)]

/-- From 2^24 on the constructor drops bit 0 of the magnitude. -/
theorem toInt_roundTrip_of_le (h : 2 ^ 24 ≤ a.toInt.natAbs) (hmax : a.toInt.natAbs ≤ cvtMax) :
    (toInteger (fromSigned a)).toInt =
      signedInt (decide (a.toInt < 0)) (a.toInt.natAbs - a.toInt.natAbs % 2) := by
  have h0 : a.toInt.natAbs ≠ 0 := by omega
  have hlt : a.toInt.natAbs < 2 ^ 25 := by rw [cvtMax] at hmax; omega
  have hlog : a.toInt.natAbs.log2 = 24 := (Nat.log2_eq_iff h0).mpr ⟨h, hlt⟩
  have hhalf : a.toInt.natAbs >>> 1 = a.toInt.natAbs / 2 := by rw [Nat.shiftRight_eq_div_pow, Nat.pow_one]
  have hdrop : a.toInt.natAbs / 2 * 2 ^ 24 / 2 ^ 23 = a.toInt.natAbs - a.toInt.natAbs % 2 := by omega
  rw [fromSigned_of_le h0 hmax, fromUnsigned_of_le h hmax, hlog, field_pack, frac_pack,
    toInt_toInteger_pack _ (by decide), implicitOne_add_fraction (by omega) (by omega), hhalf, hdrop]

theorem signedInt_natAbs (z : Int) : signedInt (decide (z < 0)) z.natAbs = z := by
  rw [signedInt]
  simp only [decide_eq_true_eq]
  split_ifs <;> omega

/-- A magnitude up to 2^24, or an even one, comes back: zero as itself, and no bit is dropped of any other. -/
theorem toInteger_fromSigned (hmax : a.toInt.natAbs ≤ cvtMax)
    (h : a.toInt.natAbs ≤ 2 ^ 24 ∨ a.toInt.natAbs % 2 = 0) : toInteger (fromSigned a) = a := by
  by_cases h0 : a.toInt = 0
  · rw [fromSigned_of_toInt_eq_zero h0, (BitVec.toInt_inj.mp h0 : a = 0)]
    rfl
  · apply BitVec.eq_of_toInt_eq
    by_cases hlt : a.toInt.natAbs < 2 ^ 24
    · rw [toInt_roundTrip_of_lt (by omega) hlt, signedInt_natAbs]
    · rw [toInt_roundTrip_of_le (Nat.le_of_not_lt hlt) hmax, show a.toInt.natAbs % 2 = 0 by omega, Nat.sub_zero,
        signedInt_natAbs]

/-- Settles O42: the first clause is `toInteger_fromSigned`, and in the second bit 0 of the magnitude is dropped
(`toInt_roundTrip_of_le`). -/
theorem integersSurviveTheRoundTrip : Obligations.IntegersSurviveTheRoundTrip := by
  intro a b c s hmax
  refine ⟨fromSigned a, toInteger (fromSigned a), rfl, rfl, toInteger_fromSigned hmax, fun hbig hodd => ?_⟩
  rw [toInt_roundTrip_of_le hbig.le hmax, hodd, natAbs_signedInt, signedInt_neg_iff (by omega), decide_eq_true_eq]
  exact ⟨rfl, Iff.rfl⟩

end Sys2Proof.Machine
end

section
/-! PROOF. O6, O15, O12: the steps of an obedient host (60_exceptions.md R103, R104, R114; 70_reset_and_hazards.md R123,
R124). The response half of a step always gives a next state, so a step that is presented no reserved op does too. With
nothing more presented, each step either answers the oldest request or lets one step of its LATENCY pass. -/

namespace Sys2Proof.Machine

variable {s t : State} {i : Instr} {n : Nat} {q : List InFlight}

/-! ### Nothing in flight, LATENCY 0 -/

/-- Settles O6: the accepted request is alone in flight and due, so the response half executes it. -/
theorem stepRunsTheDecodedRequest : Obligations.StepRunsTheDecodedRequest := by
  intro s r i es hf hi hd
  have hq : (State.accept { s with inbox := es } i 0).inFlight = [{ request := i, wait := 0 }] := by simp [hf]
  rw [step_of_request hi hd, answerOldest_of_due hq, State.tick, State.accept, List.map_nil, ← hf]

/-! ### Every step gives a next state -/

theorem answerOldest_next (s : State) : ∃ t, answerOldest s = .next t := by
  cases hd : s.due with
  | none => exact ⟨_, answerOldest_of_not_due (due_eq_none.mp hd)⟩
  | some p =>
    obtain ⟨rest, hq, -⟩ := due_eq_some.mp hd
    obtain ⟨w, -, hexec⟩ := exec_eq_respond p.1
    exact ⟨_, (answerOldest_of_due hq).trans (hexec _)⟩

theorem step_of_reset {es : List PortEvent} (h : s.inbox = .reset :: es) :
    step s = .next (State.applyReset { s with inbox := es }) := by
  rw [step, takeEvent_cons h]

theorem decode_of_wellFormed {r : Request} (h : wellFormedRequest r = true) : ∃ i, decode r = .ok i :=
  decode_of_not_reserved ((Bool.not_eq_true' _).mp h)

/-- Presented neither a reset nor a reserved op, a step is the response half at a state that has the request accepted,
if there is one, behind those in flight. -/
theorem step_eq_answerOldest (hr : PortEvent.reset ∉ s.inbox.take 1)
    (hw : ∀ r l, PortEvent.request r l ∈ s.inbox.take 1 → wellFormedRequest r = true) :
    ∃ (u : State) (new : List InFlight), step s = answerOldest u ∧ u.inbox = s.inbox.tail ∧
      u.inFlight = s.inFlight ++ new ∧
      new.map InFlight.request = (s.inbox.take 1).filterMap PortEvent.accepted := by
  cases hi : s.inbox with
  | nil => exact ⟨s, [], step_of_inbox_nil hi, hi, by simp, rfl⟩
  | cons e es =>
    cases e with
    | idle => exact ⟨_, [], step_of_idle hi, rfl, by simp, rfl⟩
    | request r l =>
      obtain ⟨i, hd⟩ := decode_of_wellFormed (hw r l (by simp [hi]))
      exact ⟨_, _, step_of_request hi hd, rfl, rfl, by simp [PortEvent.accepted, hd, Except.toOption]⟩
    | reset => exact absurd (by simp [hi]) hr

/-- Settles O15: a reset has its own next state, and any other step is a response half, which always gives one
(`answerOldest_next`); what the host has yet to present is part of what it had (`step_inbox`). -/
theorem obedientHostIsNeverRefused : Obligations.ObedientHostIsNeverRefused := by
  intro s hs
  have hnext : ∃ t, step s = .next t := by
    by_cases hr : PortEvent.reset ∈ s.inbox.take 1
    · cases hi : s.inbox with
      | nil => simp [hi] at hr
      | cons e es =>
        rw [hi, List.take_succ_cons, List.take_zero, List.mem_singleton] at hr
        exact ⟨_, step_of_reset (hr ▸ hi)⟩
    · obtain ⟨u, -, hstep, -⟩ := step_eq_answerOldest hr fun r l hmem => hs r l (List.mem_of_mem_take hmem)
      exact hstep ▸ answerOldest_next u
  obtain ⟨t, hstep⟩ := hnext
  refine ⟨t, hstep, fun r l hmem => hs r l ?_⟩
  rw [step_inbox hstep] at hmem
  exact List.mem_of_mem_tail hmem

/-! ### The queue drains -/

/-- The longest wait and the queue's length together are at most `n`. -/
def DrainsWithin (n : Nat) (q : List InFlight) : Prop :=
  ∃ L, (∀ e ∈ q, e.wait ≤ L) ∧ L + q.length ≤ n

theorem drainsWithin_nil (n : Nat) : DrainsWithin n [] :=
  ⟨0, by simp, by simp⟩

theorem DrainsWithin.eq_nil (h : DrainsWithin 0 q) : q = [] := by
  obtain ⟨L, -, hlen⟩ := h
  exact List.length_eq_zero_iff.mp (by omega)

/-- The oldest request leaves, and no wait grows. -/
theorem DrainsWithin.map_tick_of_cons {e : InFlight} (h : DrainsWithin (n + 1) (e :: q)) :
    DrainsWithin n (q.map InFlight.tick) := by
  obtain ⟨L, hwait, hlen⟩ := h
  rw [List.length_cons] at hlen
  refine ⟨L, fun d hd => ?_, by rw [List.length_map]; omega⟩
  obtain ⟨c, hc, rfl⟩ := List.mem_map.mp hd
  exact (Nat.sub_le _ _).trans (hwait c (List.mem_cons_of_mem _ hc))

/-- When the oldest request has still to wait, the longest wait is not zero, and it shrinks. -/
theorem DrainsWithin.map_tick_of_not_due (h : DrainsWithin (n + 1) q)
    (hnd : ∀ i rest, q ≠ { request := i, wait := 0 } :: rest) : DrainsWithin n (q.map InFlight.tick) := by
  cases q with
  | nil => exact drainsWithin_nil n
  | cons e rest =>
    obtain ⟨L, hwait, hlen⟩ := h
    have hne : e.wait ≠ 0 := fun h0 => hnd e.request rest (by rw [← h0])
    have hle := hwait e List.mem_cons_self
    refine ⟨L - 1, fun d hd => ?_, by rw [List.length_map]; omega⟩
    obtain ⟨c, hc, rfl⟩ := List.mem_map.mp hd
    exact Nat.sub_le_sub_right (hwait c hc) 1

theorem answerOldest_drainsWithin (h : answerOldest s = .next t) (hq : DrainsWithin (n + 1) s.inFlight) :
    DrainsWithin n t.inFlight := by
  obtain ⟨-, rest, hrest, ⟨i, hdue⟩ | ⟨rfl, hnd⟩⟩ := answerOldest_frame h
  · rw [hdue] at hq
    rw [hrest]
    exact hq.map_tick_of_cons
  · rw [hrest]
    exact hq.map_tick_of_not_due hnd

theorem trace_succ {u : State} {rs : List Word} (h : step s = .next u) (ht : trace n u = some (rs, t)) :
    trace (n + 1) s = some (u.response.toList ++ rs, t) := by
  simp only [trace, h, ht, Option.map_some]

/-- With nothing more presented, a run as long as the queue needs ends with nothing in flight. -/
theorem trace_drains (hi : s.inbox = []) (hq : DrainsWithin n s.inFlight) :
    ∃ rs t, trace n s = some (rs, t) ∧ t.inFlight = [] ∧ t.inbox = [] := by
  induction n generalizing s with
  | zero => exact ⟨[], s, rfl, hq.eq_nil, hi⟩
  | succ n ih =>
    obtain ⟨u, hans⟩ := answerOldest_next s
    have hu : u.inbox = [] := (answerOldest_frame hans).1.trans hi
    obtain ⟨rs, t, htrace, hend⟩ := ih hu (answerOldest_drainsWithin hans hq)
    exact ⟨_, t, trace_succ ((step_of_inbox_nil hi).trans hans) htrace, hend⟩

/-- Settles O12: the run ends with nothing in flight (`trace_drains`) and so with nothing owed, and no answer is lost
on the way (`responsesFollowRequestOrder`). -/
theorem everyRequestInFlightIsAnswered : Obligations.EveryRequestInFlightIsAnswered := by
  intro s L n hi hwait hlen
  obtain ⟨rs, t, htrace, hf, hti⟩ := trace_drains hi ⟨L, hwait, hlen⟩
  have horder := responsesFollowRequestOrder n s t rs (by simp [hi]) htrace
  exact ⟨rs, t, htrace, by simpa [hi, State.owed, hf] using horder, hf, hti⟩

end Sys2Proof.Machine
end

section
/-! PROOF. O9: reset (70_reset_and_hazards.md R116, R121). Nothing is in flight after a reset, so the idle steps after it
present nothing. The first request is then the oldest in flight until it is answered: while it waits nothing is
presented, and what is accepted meanwhile stays behind it. -/

namespace Sys2Proof.Machine

variable {s t u : State} {i : Instr} {k m n L : Nat} {q : List InFlight}

/-! ### Runs without a response -/

/-- `k` steps from `s` lead to `t`, and none of them presents a response. -/
def SilentRun (k : Nat) (s t : State) : Prop :=
  Sys2Proof.core.run k s = .next t ∧
    ∀ j, j < k → ∃ u, Sys2Proof.core.run (j + 1) s = .next u ∧ State.response u = none

theorem SilentRun.zero (s : State) : SilentRun 0 s s :=
  ⟨rfl, fun _ h => absurd h (Nat.not_lt_zero _)⟩

theorem SilentRun.cons (hstep : step s = .next t) (hnone : t.response = none) (h : SilentRun k t u) :
    SilentRun (k + 1) s u := by
  refine ⟨(core_run_succ k hstep).trans h.1, fun j hj => ?_⟩
  cases j with
  | zero => exact ⟨t, core_run_one hstep, hnone⟩
  | succ j =>
    obtain ⟨v, hv, hvnone⟩ := h.2 j (Nat.lt_of_succ_lt_succ hj)
    exact ⟨v, (core_run_succ (j + 1) hstep).trans hv, hvnone⟩

theorem SilentRun.trans (hm : SilentRun m s t) (hn : SilentRun n t u) : SilentRun (m + n) s u := by
  refine ⟨(core_run_add m n hm.1).trans hn.1, fun j hj => ?_⟩
  by_cases hjm : j < m
  · exact hm.2 j hjm
  · obtain ⟨v, hv, hvnone⟩ := hn.2 (j - m) (by omega)
    refine ⟨v, ?_, hvnone⟩
    rw [← hv, ← core_run_add m (j - m + 1) hm.1]
    congr 1
    omega

/-! ### The steps after a reset -/

/-- With nothing in flight, idle steps present nothing and accept nothing. -/
theorem silentRun_of_idle {es : List PortEvent} (hf : s.inFlight = [])
    (hi : s.inbox = List.replicate m .idle ++ es) : ∃ t, SilentRun m s t ∧ t.inFlight = [] ∧ t.inbox = es := by
  induction m generalizing s with
  | zero => exact ⟨s, .zero s, hf, by simpa using hi⟩
  | succ m ih =>
    have hi' : s.inbox = .idle :: (List.replicate m .idle ++ es) := hi
    have hstep := (step_of_idle hi').trans (answerOldest_of_not_due (by simp [hf]))
    obtain ⟨t, hrun, hend⟩ := ih (s := State.silent (State.tick { s with inbox := List.replicate m .idle ++ es }))
      (by simp [hf]) rfl
    exact ⟨t, .cons hstep (response_silent _) hrun, hend⟩

/-- The response half that answers the oldest request leaves the others in flight. -/
theorem answerOldest_answers (hq : u.inFlight = { request := i, wait := 0 } :: q) :
    ∃ t, answerOldest u = .next t ∧ t.response = answerOf i ∧ t.inbox = u.inbox ∧
      t.inFlight = q.map InFlight.tick := by
  obtain ⟨w, hw, hexec⟩ := exec_eq_respond i
  exact ⟨_, (answerOldest_of_due hq).trans (hexec _), (response_respond _ w).trans hw.symm, rfl, rfl⟩

/-- From the step whose response half has a request of LATENCY `L` as the oldest in flight, `L` steps present nothing and
the next presents its answer; the requests accepted meanwhile are in flight behind the others. -/
theorem silentRun_until_answered (hs : step s = answerOldest u) (hq : u.inFlight = { request := i, wait := L } :: q)
    (hr : PortEvent.reset ∉ u.inbox.take L)
    (hw : ∀ r l, PortEvent.request r l ∈ u.inbox.take L → wellFormedRequest r = true) :
    ∃ v t, SilentRun L s v ∧ step v = .next t ∧ t.response = answerOf i ∧ t.inbox = u.inbox.drop L ∧
      t.inFlight.map InFlight.request =
        q.map InFlight.request ++ (u.inbox.take L).filterMap PortEvent.accepted := by
  induction L generalizing s u q with
  | zero =>
    obtain ⟨t, hans, hresp, hti, htf⟩ := answerOldest_answers hq
    exact ⟨s, t, .zero s, hs.trans hans, hresp, by simpa using hti, by simp [htf]⟩
  | succ L ih =>
    have hsplit : u.inbox.take (L + 1) = u.inbox.take 1 ++ u.inbox.tail.take L := by
      rw [Nat.add_comm, List.take_add, List.drop_one]
    rw [hsplit, List.mem_append, not_or] at hr
    simp only [hsplit, List.mem_append] at hw
    have hsilent : step s = .next u.tick.silent := hs.trans (answerOldest_of_not_due (by simp [hq]))
    obtain ⟨u', new, hstep, hinbox, hflight, hnew⟩ :=
      step_eq_answerOldest (s := u.tick.silent) hr.1 fun r l h => hw r l (.inl h)
    have htail : u'.inbox = u.inbox.tail := hinbox
    obtain ⟨v, t, hrun, hans, hresp, hti, htf⟩ := ih (q := q.map InFlight.tick ++ new) hstep
      (by simp [hflight, hq, InFlight.tick]) (htail ▸ hr.2) fun r l h => hw r l (.inr (htail ▸ h))
    refine ⟨v, t, .cons hsilent (response_silent _) hrun, hans, hresp, by rw [hti, htail, List.drop_tail], ?_⟩
    simp [htf, htail, hsplit, hnew]

/-- Settles O9: from the reset on, the idle steps (`silentRun_of_idle`) and then the request's LATENCY
(`silentRun_until_answered`) are one run without a response. -/
theorem resetDropsTheRequestsInFlight : Obligations.ResetDropsTheRequestsInFlight := by
  intro s es hi
  refine ⟨State.applyReset { s with inbox := es }, step_of_reset hi, rfl, rfl, rfl, rfl, ?_⟩
  intro m L r i later hes hd hr hw
  obtain ⟨t, hidle, htf, hti⟩ := silentRun_of_idle (s := State.applyReset { s with inbox := es }) rfl hes
  obtain ⟨v, u, hwait, hstep, hresp, hui, huf⟩ := silentRun_until_answered (step_of_request hti hd)
    (i := i) (L := L) (q := []) (by simp [htf]) hr hw
  obtain ⟨hrun, hsilent⟩ := hidle.trans hwait
  obtain ⟨w, hanswer, -⟩ := exec_eq_respond i
  exact ⟨hsilent, u, (core_run_add (m + L) 1 hrun).trans (core_run_one hstep), hresp, by simp [hanswer], hui, huf⟩

end Sys2Proof.Machine
end
